-- ==== Sys2Proof/Word.lean ====
section
/-! DEFINITION. The bit-vector types of the device (spec/00_scope.md R11, R9) and the possibly unwritten byte of a RAM (R16). -/

namespace Sys2Proof

/-- A byte: an unsigned integer in 0..255 (R11). -/
abbrev Byte := BitVec 8

/-- A word: an unsigned 32-bit integer, the register data width (R9, R11). -/
abbrev Word := BitVec 32

/-- A byte offset in the 14-bit register space 0x0000 to 0x3FFF (R46). -/
abbrev Offset := BitVec 14

/-- A byte of a RAM, or of a value computed from a RAM: `none` is the spec's ⊥, a byte that has not been written
since the last reset or that was computed from such a byte (R16, R40). -/
abbrev MByte := Option Byte

end Sys2Proof
end

