-- ==== Sys2Proof/Config.lean ====
section
/-! DEFINITION. What the spec fixes for this device (spec/00_scope.md R2, R8, R9), the parameters it leaves to the platform
or the host (R10), and the free values, which have no body. The choice of
`DIGEST` that this hardware makes (R88) is `Config.digest`, in Machine/Sha256.lean. -/

namespace Sys2Proof

/-- A choice of the parameter `DIGEST`: a total function from byte sequences to 32 bytes (R10, R88). -/
abbrev Digest := List Byte → Vector Byte 32

end Sys2Proof

namespace Sys2Proof.Config

/-- ID, the read-only identification word (R24). -/
def idValue : Word := 0x45444553

/-- VERSION: major 1, minor 0 (R25). -/
def versionValue : Word := 0x00010000

/-- `PWD_MAX`, the longest password the engine absorbs (R9, R34). -/
def pwdMax : Nat := 4294967295

/-- Register-space offset of SBOX[0], the SBOX window (R47, R49). -/
def sboxBase : Nat := 0x1000

/-- Bytes of SBOX (R8, R38). -/
def sboxBytes : Nat := 256

/-- Register-space offset of RSBOX_FLAT[0], the RSBOX window (R47, R49). -/
def rsboxBase : Nat := 0x2000

/-- `FLAT_BYTES`, the bytes of RSBOX (R8, R39). -/
def flatBytes : Nat := 4096

/-- `ROUNDS`, the rounds of the Feistel network (R8). -/
def rounds : Nat := 16

/-- `DEV_BASE`, the host address of offset 0: the platform's choice, no value is known here (R10, R46). -/
opaque devBase : Nat

/-- The host address that reaches offset `a` of the register space (R46). -/
def hostAddress (a : Offset) : Nat := devBase + a.toNat

/-- FREE VALUE (R16, R40): the byte that stands for lane `lane` of a result when that lane was computed from an unwritten
RAM byte, in the `draw`-th such event. Nothing is known of it. -/
opaque freeByte (draw lane : Nat) : Byte

/-- FREE VALUE (R16, R56): the word a read of a protected register returns while BUSY = 1, in the `draw`-th draw. Nothing
is known of it. -/
opaque freeWord (draw : Nat) : Word

/-- `UNPAD_MODE`, the host driver's padding-removal check: an open parameter, which the driver takes as an argument
(R10, R119). -/
inductive UnpadMode where
  | faithful
  | count
deriving DecidableEq, Repr

end Sys2Proof.Config
end

