-- ==== Sys2Proof/Syntax.lean ====
section
/-! DEFINITION. The nine commands (spec/30_encoding.md R71) and the fields of Format C, the command word (R68). -/

namespace Sys2Proof

/-- A command of the opcode map (R71). The only operand is ROUND, a 4-bit field that only ROUNDF takes (R70); every
other operand is implicit. -/
inductive Instr where
  /-- No operation (R84). -/
  | nop
  /-- Empty the password absorber (R85). -/
  | pwdclr
  /-- KEY from the password (R89). -/
  | hash
  /-- SBOX from KEY (R90). -/
  | ksched
  /-- RSBOX from SBOX (R94). -/
  | expand
  /-- HASH, KSCHED and EXPAND in one command (R101). -/
  | setup
  /-- Encrypt the block in DATA (R110). -/
  | enc
  /-- Decrypt the block in DATA (R111). -/
  | dec
  /-- The round function on DATA0, with round S-box `round` (R108). -/
  | roundf (round : BitVec 4)
deriving DecidableEq, Repr

/-- Format C, the three fields of a 32-bit command word (R68). -/
structure CmdFields where
  /-- Bits 3:0. -/
  op : BitVec 4
  /-- Bits 7:4. -/
  round : BitVec 4
  /-- Bits 31:8. -/
  rsvd : BitVec 24
deriving DecidableEq, Repr

end Sys2Proof
end

