-- ==== Sys2Proof/WellFormed.lean ====
section
/-! DEFINITION. Which field triples of Format C are a command: the three checks of spec/30_encoding.md R72 and R73. A term of
`Instr` cannot break one of them (its one operand has exactly the width of ROUND); a triple of fields can. -/

namespace Sys2Proof

/-- Why a command word is Illegal (R73). -/
inductive Illegal where
  /-- A nonzero RSVD bit. -/
  | reservedBits
  /-- OP in 0x9..0xF. -/
  | reservedOp
  /-- A nonzero ROUND with an OP other than 0x8. -/
  | roundField
deriving DecidableEq, Repr

namespace CmdFields

/-- RSVD is 0 (R68). -/
def rsvdOk (f : CmdFields) : Bool := f.rsvd = 0

/-- OP is one of 0x0..0x8 (R71). -/
def opOk (f : CmdFields) : Bool := f.op ≤ 8

/-- ROUND is 0 unless OP is 0x8 (R68, R70). -/
def roundOk (f : CmdFields) : Bool := f.op = 8 || f.round = 0

/-- The fields are those of one of the 24 command words (R72). -/
def wellFormed (f : CmdFields) : Bool := f.rsvdOk && f.opOk && f.roundOk

end CmdFields

end Sys2Proof
end

