-- ==== Sys2Proof/Decode.lean ====
section
/-! DEFINITION. The decoder of command words, total on all 2^32 words (spec/30_encoding.md R72), and the encoder written
from the same map (R68, R71). -/

namespace Sys2Proof

/-- The fields of a word (R68): OP at bits 3:0, ROUND at bits 7:4, RSVD at bits 31:8. -/
def CmdFields.ofWord (v : Word) : CmdFields :=
  ⟨v.extractLsb' 0 4, v.extractLsb' 4 4, v.extractLsb' 8 24⟩

/-- The word with the given fields (R68). -/
def CmdFields.toWord (f : CmdFields) : Word := f.rsvd ++ f.round ++ f.op

/-- A command without operand: its ROUND field must be 0 (R70, R72). -/
def CmdFields.plain (f : CmdFields) (i : Instr) : Except Illegal Instr :=
  if f.round = 0 then .ok i else .error .roundField

/-- The opcode map (R71), read from the fields in the order of R72's checks. -/
def decodeFields (f : CmdFields) : Except Illegal Instr :=
  if f.rsvd ≠ 0 then .error .reservedBits
  else match f.op.toNat with
    | 0 => f.plain .nop
    | 1 => f.plain .pwdclr
    | 2 => f.plain .hash
    | 3 => f.plain .ksched
    | 4 => f.plain .expand
    | 5 => f.plain .setup
    | 6 => f.plain .enc
    | 7 => f.plain .dec
    | 8 => .ok (.roundf f.round)
    | _ => .error .reservedOp

/-- `Decode(v)` (R72): the command a word stands for, or the reason it is Illegal. -/
def decode (v : Word) : Except Illegal Instr := decodeFields (.ofWord v)

/-- The fields of a command's word, from the column "command word(s)" of the opcode map (R71). -/
def Instr.fields : Instr → CmdFields
  | .nop => ⟨0x0, 0, 0⟩
  | .pwdclr => ⟨0x1, 0, 0⟩
  | .hash => ⟨0x2, 0, 0⟩
  | .ksched => ⟨0x3, 0, 0⟩
  | .expand => ⟨0x4, 0, 0⟩
  | .setup => ⟨0x5, 0, 0⟩
  | .enc => ⟨0x6, 0, 0⟩
  | .dec => ⟨0x7, 0, 0⟩
  | .roundf r => ⟨0x8, r, 0⟩

/-- The command word of a command (R71). -/
def encode (i : Instr) : Word := i.fields.toWord

/-- The command the decoder reads from the low `nbits` bits of `w`, every higher bit of the command word being 0. Every
command is one 32-bit word (R74). -/
def decodeTableWord (nbits w : Nat) : Option Instr :=
  (decode (BitVec.ofNat 32 (w % 2 ^ nbits))).toOption

end Sys2Proof
end

