-- ==== Sys2Proof/Machine/State.lean ====
section
/-! DEFINITION. The state of the device (spec/10_state.md R23), the host's transactions and the input events that drive it
(R20, spec/30_encoding.md R69), and the state after reset (R44). -/

namespace Sys2Proof.Machine

/-- What the spec calls a fault of the model (R40). No step ever ENDS in a fault: `R80` says that no command can fail, and
`R131` that no error stops anything. -/
inductive Fault where
  /-- An unwritten RAM byte was used. Recorded in `State.fault` by `State.record`, never cleared; the machine goes on
  with free values. Safe: no claim can depend on the value. -/
  | unwrittenRam
deriving DecidableEq, Repr

/-- Why a command has no meaning. -/
inductive Refusal where
  /-- Raised by an arm of `exec` whose command is not modelled: no arm is. Safe: nothing can be proved of a next state. -/
  | notModelled (mnemonic : String)
deriving DecidableEq, Repr

/-- The error causes of STATUS.ERRCODE (spec/60_exceptions.md R132); `ErrorCode.code` gives their numbers. -/
inductive ErrorCode where
  /-- A CMD write of an Illegal word (R134). -/
  | illegalCmd
  /-- A write to a protected register while BUSY = 1 (R135). -/
  | busy
  /-- A PWD_DATA write when PWD is full (R136). -/
  | pwdOverflow
  /-- A write to a misaligned or unmapped offset or to a read-only register (R137). -/
  | access
deriving DecidableEq, Repr

/-- Format B, a host transaction (spec/30_encoding.md R69): DIR, OFFSET and, for a write, DATA. -/
inductive Txn where
  | read (offset : Offset)
  | write (offset : Offset) (data : Word)
deriving DecidableEq, Repr

/-- What happens next (R20): the host's next transaction, the engine's turn, or a reset. A list of these is one
interleaving of the two agents and of the reset input. -/
inductive Event where
  | host (t : Txn)
  | engine
  | reset
deriving DecidableEq, Repr

/-- Four bytes: a half-block, byte `k` in lane `k` (R12, spec/43_round_function.md R107). -/
structure Half (α : Type) where
  b0 : α
  b1 : α
  b2 : α
  b3 : α
deriving DecidableEq, Repr

/-- The Block: DATA[0..4) is the left half, DATA[4..8) the right half (R41, spec/44_feistel_network.md R109). -/
structure Block (α : Type) where
  left : Half α
  right : Half α
deriving DecidableEq, Repr

/-- The RAM bytes that have been written since the last reset, keyed by their register-space offset: SBOX[i] at
0x1000 + i, RSBOX_FLAT[k] at 0x2000 + k (spec/20_memory.md R49). An unlisted RAM byte is ⊥ (R40). -/
abbrev Memory := List Host.Cell

/-- The offsets that are a RAM byte: the SBOX and the RSBOX window (R47). -/
def isRamOffset (a : Nat) : Bool :=
  (Config.sboxBase ≤ a && a < Config.sboxBase + Config.sboxBytes)
    || (Config.rsboxBase ≤ a && a < Config.rsboxBase + Config.flatBytes)

/-- The canonical form: addresses strictly rise, and each is a RAM byte's. An unlisted byte has no value, so no entry
can equal what an unlisted byte reads as. -/
abbrev Memory.wf (m : Memory) : Prop :=
  (m.map Prod.fst).Pairwise (· < ·) ∧ ∀ a ∈ m.map Prod.fst, isRamOffset a = true

/-- The state: the tuple of R23, and after it the model's own fields. -/
structure State where
  /-- STATUS bit 0, BUSY (R27, R28). -/
  busy : Bool
  /-- STATUS bit 1, DONE (R27, R29). -/
  done : Bool
  /-- STATUS bit 2, ERRF (R27, R30). -/
  errf : Bool
  /-- STATUS bits 7:4, ERRCODE (R27, R30, R132). -/
  errcode : BitVec 4
  /-- INTEN bit 0, DONE_IE (R31). -/
  doneIe : Bool
  /-- INTEN bit 1, ERR_IE (R31). -/
  errIe : Bool
  /-- PWD, the password absorbed so far, first byte first (R34). -/
  pwd : List Byte
  /-- KEY, the DerivedKey (R37). -/
  key : Vector Byte 32
  /-- DATA, the Block (R41). -/
  data : Block Byte
  /-- SBOX and RSBOX, the two RAMs (R38, R39). -/
  mem : Memory
  /-- CUR, the command in flight (R42). -/
  cur : Option Instr
  /-- MODEL'S OWN: the recorded fault of R40, never cleared. -/
  fault : Option Fault
  /-- MODEL'S OWN: how many times free values have been drawn (R16). -/
  draws : Nat
  /-- THE HOST'S: the word the last read transaction returned (R15). -/
  reply : Option Word
  /-- THE ENVIRONMENT'S: the events still to come, the next one first (R20, R62). -/
  inputs : List Event
deriving DecidableEq, Repr

/-- The state after reset (R44), with no event to come, nothing read and no fault recorded. -/
def State.reset : State where
  busy := false
  done := false
  errf := false
  errcode := 0
  doneIe := false
  errIe := false
  pwd := []
  key := .replicate 32 0
  data := ⟨⟨0, 0, 0, 0⟩, ⟨0, 0, 0, 0⟩⟩
  mem := []
  cur := none
  fault := none
  draws := 0
  reply := none
  inputs := []

end Sys2Proof.Machine
end

