-- ==== Sys2Proof/Machine/Operands.lean ====
section
/-! DEFINITION. How bytes sit in words (spec/00_scope.md R13, spec/20_memory.md R48), half-blocks, the words of KEY and DATA,
and the register map (R47). -/

namespace Sys2Proof.Machine

/-- `pack32` (R13): byte k of the four at bits 8k+7 to 8k. -/
def pack32 (b0 b1 b2 b3 : Byte) : Word :=
  b0.setWidth 32 ||| (b1.setWidth 32 <<< 8) ||| (b2.setWidth 32 <<< 16) ||| (b3.setWidth 32 <<< 24)

/-- `byte_k` (R13): bits 8k+7 to 8k of a word. -/
def byteOf (k : Nat) (w : Word) : Byte := w.extractLsb' (8 * k) 8

namespace Half

variable {α β : Type}

/-- The lanes in order, byte 0 first. -/
def toList (h : Half α) : List α := [h.b0, h.b1, h.b2, h.b3]

/-- The same function on each lane. -/
def map (f : α → β) (h : Half α) : Half β := ⟨f h.b0, f h.b1, f h.b2, f h.b3⟩

/-- Lane by lane, with no carry between lanes (R12, R107). -/
def zip (f : α → α → α) (x y : Half α) : Half α := ⟨f x.b0 y.b0, f x.b1 y.b1, f x.b2 y.b2, f x.b3 y.b3⟩

/-- The word that holds four bytes (R48). -/
def word (h : Half Byte) : Word := pack32 h.b0 h.b1 h.b2 h.b3

/-- The four bytes of a word (R48). -/
def ofWord (w : Word) : Half Byte := ⟨byteOf 0 w, byteOf 1 w, byteOf 2 w, byteOf 3 w⟩

/-- Whether a lane is, or was computed from, an unwritten RAM byte. -/
def unknown (h : Half MByte) : Bool := h.b0.isNone || h.b1.isNone || h.b2.isNone || h.b3.isNone

end Half

/-- The bytes of a block in order, DATA[0] first (R109). -/
def Block.toList {α : Type} (b : Block α) : List α := b.left.toList ++ b.right.toList

/-- KEYk: bytes 4k to 4k+3 of KEY (R37). -/
def keyWord (key : Vector Byte 32) (k : Fin 8) : Word :=
  pack32 key[4 * k.val] key[4 * k.val + 1] key[4 * k.val + 2] key[4 * k.val + 3]

/-- KEY with bytes 4k to 4k+3 taken from a word (R37, R58). -/
def setKeyWord (key : Vector Byte 32) (k : Fin 8) (v : Word) : Vector Byte 32 :=
  .ofFn fun i => if i.val / 4 = k.val then byteOf (i.val % 4) v else key[i.val]

/-- The registers of the register map (R47). -/
inductive Reg where
  | id
  | version
  | cmd
  | status
  | inten
  | pwdData
  | pwdLen
  | key (k : Fin 8)
  | data0
  | data1
  | sbox (w : Fin 64)
  | rsbox (w : Fin 1024)
deriving DecidableEq, Repr

/-- The register map (R47): the register at an offset, none where the offset is misaligned (R52) or unmapped (R53). -/
def Reg.ofOffset (offset : Offset) : Option Reg :=
  let a := offset.toNat
  if a % 4 ≠ 0 then none
  else if a = 0x0000 then some .id
  else if a = 0x0004 then some .version
  else if a = 0x0008 then some .cmd
  else if a = 0x000C then some .status
  else if a = 0x0010 then some .inten
  else if a = 0x0014 then some .pwdData
  else if a = 0x0018 then some .pwdLen
  else if h : 0x0020 ≤ a ∧ a ≤ 0x003C then some (.key ⟨(a - 0x0020) / 4, by omega⟩)
  else if a = 0x0040 then some .data0
  else if a = 0x0044 then some .data1
  else if h : 0x1000 ≤ a ∧ a ≤ 0x10FC then some (.sbox ⟨(a - 0x1000) / 4, by omega⟩)
  else if h : 0x2000 ≤ a ∧ a ≤ 0x2FFC then some (.rsbox ⟨(a - 0x2000) / 4, by omega⟩)
  else none

/-- The offset of a register (R47), the map read from right to left. -/
def Reg.offset : Reg → Offset
  | .id => 0x0000
  | .version => 0x0004
  | .cmd => 0x0008
  | .status => 0x000C
  | .inten => 0x0010
  | .pwdData => 0x0014
  | .pwdLen => 0x0018
  | .key k => BitVec.ofNat 14 (0x0020 + 4 * k.val)
  | .data0 => 0x0040
  | .data1 => 0x0044
  | .sbox w => BitVec.ofNat 14 (0x1000 + 4 * w.val)
  | .rsbox w => BitVec.ofNat 14 (0x2000 + 4 * w.val)

/-- The RAM address of the first byte of SBOX window word `w` (R49). -/
def sboxWord (w : Fin 64) : Nat := Config.sboxBase + 4 * w.val

/-- The RAM address of the first byte of RSBOX window word `w` (R49). -/
def rsboxWord (w : Fin 1024) : Nat := Config.rsboxBase + 4 * w.val

end Sys2Proof.Machine
end

