-- ==== Sys2Proof/Machine/Flags.lean ====
section
/-! DEFINITION. STATUS and INTEN as words, their writes, the error codes and the interrupt output (spec/10_state.md R27 to R33,
spec/60_exceptions.md R132, R141). These are the device's only flags (R33). -/

namespace Sys2Proof.Machine

/-- The number STATUS.ERRCODE holds for a cause (R132). -/
def ErrorCode.code : ErrorCode → BitVec 4
  | .illegalCmd => 1
  | .busy => 2
  | .pwdOverflow => 3
  | .access => 4

/-- Bit 0 or 1 as a word. -/
def flagWord (b : Bool) : Word := if b then 1 else 0

namespace State

/-- STATUS as a read returns it (R27, R57); bits 3 and 31:8 read 0. -/
def statusWord (s : State) : Word :=
  (s.errcode.setWidth 32 <<< 4) ||| (flagWord s.errf <<< 2) ||| (flagWord s.done <<< 1) ||| flagWord s.busy

/-- INTEN as a read returns it (R31, R57); bits 31:2 read 0. -/
def intenWord (s : State) : Word := (flagWord s.errIe <<< 1) ||| flagWord s.doneIe

/-- A write of STATUS (R27, R58): bit 1 clears DONE, bit 2 clears ERRF and ERRCODE; every other bit is ignored. -/
def writeStatus (s : State) (v : Word) : State :=
  { s with
    done := if v.getLsbD 1 then false else s.done
    errf := if v.getLsbD 2 then false else s.errf
    errcode := if v.getLsbD 2 then 0 else s.errcode }

/-- A write of INTEN (R31, R58): bits 1:0 are stored, every other bit is ignored. -/
def writeInten (s : State) (v : Word) : State :=
  { s with doneIe := v.getLsbD 0, errIe := v.getLsbD 1 }

/-- The interrupt output, a level (R32, R141). -/
def irq (s : State) : Bool := (s.done && s.doneIe) || (s.errf && s.errIe)

end State

end Sys2Proof.Machine
end

