-- ==== Sys2Proof/Machine/Ops.lean ====
section
/-! DEFINITION. The named operations over the RAMs, PWD, the free values, the errors and the command lifecycle
(spec/40_command_control.md R77 to R79, spec/60_exceptions.md R133, spec/10_state.md R40). -/

namespace Sys2Proof.Machine

namespace Memory

/-- One RAM byte, ⊥ where none has been written (R40). -/
def read (m : Memory) (a : Nat) : MByte := m.lookup a

/-- Store one byte, keeping the addresses rising. -/
def write : Memory → Nat → Byte → Memory
  | [], a, b => [(a, b)]
  | (k, c) :: rest, a, b =>
    if a < k then (a, b) :: (k, c) :: rest
    else if a = k then (a, b) :: rest
    else (k, c) :: write rest a b

/-- Store the bytes `f 0`, …, `f (n - 1)` at `base`, …, `base + n - 1`. -/
def fill (m : Memory) (base n : Nat) (f : Nat → Byte) : Memory :=
  m.filter (fun c => c.1 < base)
    ++ (List.range n).map (fun k => (base + k, f k))
    ++ m.filter (fun c => base + n ≤ c.1)

/-- Store the four bytes of a word, byte 0 at the lowest address (R48, R49). -/
def writeWord (m : Memory) (a : Nat) (w : Word) : Memory :=
  (((m.write a (byteOf 0 w)).write (a + 1) (byteOf 1 w)).write (a + 2) (byteOf 2 w)).write (a + 3) (byteOf 3 w)

end Memory

namespace State

/-- SBOX[i], ⊥ where not written (R38). -/
def sbox (s : State) (i : Nat) : MByte := s.mem.read (Config.sboxBase + i)

/-- RSBOX_FLAT[k], ⊥ where not written (R39). -/
def rsboxFlat (s : State) (k : Nat) : MByte := s.mem.read (Config.rsboxBase + k)

/-- RSBOX[r][i] = RSBOX_FLAT[256 r + i] (R14, R39). -/
def rsbox (s : State) (r i : Nat) : MByte := s.rsboxFlat (256 * r + i)

/-- The byte that is stored or returned for lane `k` of a result: the result where it is defined, a free value where it
was computed from an unwritten RAM byte (R16, R40). -/
def lane (s : State) (k : Nat) (x : MByte) : Byte := x.getD (Config.freeByte s.draws k)

/-- Where `used` says that an unwritten RAM byte was used, record the fault of R40 and move on to the next draw. -/
def record (s : State) (used : Bool) : State :=
  if used then { s with fault := some .unwrittenRam, draws := s.draws + 1 } else s

/-- A half-block as stored, its lanes numbered from `k` (R40). -/
def laneHalf (s : State) (k : Nat) (h : Half MByte) : Half Byte :=
  ⟨s.lane k h.b0, s.lane (k + 1) h.b1, s.lane (k + 2) h.b2, s.lane (k + 3) h.b3⟩

/-- `raise Error(c)` (R133), the device's only exception: the first error since ERRF was cleared is kept. Nothing is
saved, nothing jumps, and there is no return from it (R131, R142, R143). -/
def raise (s : State) (c : ErrorCode) : State :=
  if s.errf then s else { s with errf := true, errcode := c.code }

/-- A write to a protected register: refused with Error(BUSY) while BUSY = 1, otherwise `f` (R55, R58, R135). -/
def ifIdle (s : State) (f : State → State) : State :=
  if s.busy then s.raise .busy else f s

/-- `Absorb(b)` (R86): append a byte to PWD, or raise PWD_OVERFLOW when it is full. -/
def absorb (s : State) (b : Byte) : State :=
  if s.pwd.length = Config.pwdMax then s.raise .pwdOverflow else { s with pwd := s.pwd ++ [b] }

/-- `Accept(d)` (R78): CUR, BUSY and DONE; ERRF and ERRCODE keep their values. -/
def accept (s : State) (i : Instr) : State := { s with cur := some i, busy := true, done := false }

/-- `Submit(v)` (R77): decode the word, and accept the command or raise ILLEGAL_CMD. -/
def submit (s : State) (v : Word) : State :=
  match decode v with
  | .error _ => s.raise .illegalCmd
  | .ok i => s.accept i

/-- The three lifecycle writes of a completion (R79). -/
def complete (s : State) : State := { s with cur := none, busy := false, done := true }

/-- The reset event (R150, R151): every piece of R44's state at its reset value. The recorded fault is never cleared (R40)
and the draws go on; the host's last reply and the events to come are not the device's. -/
def resetEvent (s : State) : State :=
  { State.reset with fault := s.fault, draws := s.draws, reply := s.reply, inputs := s.inputs }

end State

end Sys2Proof.Machine
end

