-- ==== Sys2Proof/Machine/Control.lean ====
section
/-! DEFINITION. The two commands that compute nothing from the cipher: NOP and PWDCLR (spec/40_command_control.md R84, R85). -/

namespace Sys2Proof.Machine

/-- `Exec(NOP, 0)` (R84): nothing. -/
def execNop (s : State) : Host.Outcome State Fault Refusal := .next s

/-- `Exec(PWDCLR, 0)` (R85): PWD becomes empty. -/
def execPwdclr (s : State) : Host.Outcome State Fault Refusal := .next { s with pwd := [] }

end Sys2Proof.Machine
end

