-- ==== Sys2Proof/Machine/Sha256.lean ====
section
/-! DEFINITION. SHA-256, the hash that this hardware takes as `DIGEST` (spec/41_key_derivation.md R88, spec/93_implementation_defined.md
G1). The spec names it and gives digests of three texts, not its algorithm: PRESUMED, notes/assumptions/3.md. -/

namespace Sys2Proof.Machine.Sha256

/-- The eight words of a chaining value. -/
structure Chain where
  a : Word
  b : Word
  c : Word
  d : Word
  e : Word
  f : Word
  g : Word
  h : Word
deriving DecidableEq, Repr

/-- The primes below 312, the first 64: no divisor from 2 to 17. -/
def primes : List Nat :=
  (List.range 312).filter fun n => 1 < n && (List.range 18).all fun d => d < 2 || n ≤ d || n % d ≠ 0

/-- The largest number with `k`-th power at most `n` that agrees with `r` above its `b` lowest bits. -/
def root (k n : Nat) : Nat → Nat → Nat
  | 0, r => r
  | b + 1, r => root k n b (if (r + 2 ^ b) ^ k ≤ n then r + 2 ^ b else r)

/-- The first 32 bits after the point of the `k`-th root of `p`, a root below 16. -/
def fraction (k p : Nat) : Word := BitVec.ofNat 32 (root k (p * 2 ^ (32 * k)) 36 0)

/-- The initial chaining value: the square roots of the first eight primes. -/
def initial : Chain :=
  let h (n : Nat) := fraction 2 (primes.getD n 0)
  ⟨h 0, h 1, h 2, h 3, h 4, h 5, h 6, h 7⟩

/-- The 64 round constants: the cube roots of the first 64 primes. -/
def constants : List Word := primes.map (fraction 3)

/-- Rotation of a word to the right. -/
def rotr (n : Nat) (x : Word) : Word := (x >>> n) ||| (x <<< (32 - n))

/-- The next word of the message schedule, from the 16 words before it. -/
def schedule (w : List Word) : Word :=
  let x := w.getD 1 0
  let y := w.getD 14 0
  (rotr 17 y ^^^ rotr 19 y ^^^ (y >>> 10)) + w.getD 9 0 + (rotr 7 x ^^^ rotr 18 x ^^^ (x >>> 3)) + w.getD 0 0

/-- One round with constant `k` and schedule word `w`. -/
def round (k w : Word) (s : Chain) : Chain :=
  let t1 := s.h + (rotr 6 s.e ^^^ rotr 11 s.e ^^^ rotr 25 s.e) + ((s.e &&& s.f) ^^^ (~~~s.e &&& s.g)) + k + w
  let t2 := (rotr 2 s.a ^^^ rotr 13 s.a ^^^ rotr 22 s.a) + ((s.a &&& s.b) ^^^ (s.a &&& s.c) ^^^ (s.b &&& s.c))
  ⟨t1 + t2, s.a, s.b, s.c, s.d + t1, s.e, s.f, s.g⟩

/-- The rounds, over the constants still to come and the 16 schedule words in sight. -/
def compressRounds : List Word → List Word → Chain → Chain
  | [], _, s => s
  | k :: ks, w, s => compressRounds ks (w.drop 1 ++ [schedule w]) (round k (w.getD 0 0) s)

/-- The compression function on a block of 16 words. -/
def compress (s : Chain) (w : List Word) : Chain :=
  let t := compressRounds constants w s
  ⟨s.a + t.a, s.b + t.b, s.c + t.c, s.d + t.d, s.e + t.e, s.f + t.f, s.g + t.g, s.h + t.h⟩

/-- The eight bytes of a length, most significant first. -/
def lengthBytes (bits : Nat) : List Byte :=
  (List.range 8).map fun k => BitVec.ofNat 8 (bits >>> (8 * (7 - k)))

/-- The padded message: the bit 1, zeros, and the length in bits. -/
def pad (m : List Byte) : List Byte :=
  m ++ 0x80 :: List.replicate ((119 - m.length % 64) % 64) 0 ++ lengthBytes (8 * m.length)

/-- Bytes to words, most significant byte first. -/
def toWords : List Byte → List Word
  | b0 :: b1 :: b2 :: b3 :: rest => pack32 b3 b2 b1 b0 :: toWords rest
  | _ => []

/-- `n` blocks of 16 words each. -/
def blocks : Nat → List Word → Chain → Chain
  | 0, _, s => s
  | n + 1, w, s => blocks n (w.drop 16) (compress s (w.take 16))

/-- Word `k` of a chaining value. -/
def Chain.word (s : Chain) : Nat → Word
  | 0 => s.a
  | 1 => s.b
  | 2 => s.c
  | 3 => s.d
  | 4 => s.e
  | 5 => s.f
  | 6 => s.g
  | _ => s.h

/-- The chaining value after a message. -/
def chain (m : List Byte) : Chain :=
  let w := toWords (pad m)
  blocks (w.length / 16) w initial

/-- SHA-256: the 32 bytes of the digest, in the order the hash produces them (R88). -/
def digest (m : List Byte) : Vector Byte 32 :=
  let c := chain m
  .ofFn fun i => byteOf (3 - i.val % 4) (c.word (i.val / 4))

end Sys2Proof.Machine.Sha256

/-- `DIGEST` (R10, R88): the named configuration field. This hardware takes SHA-256. Irreducible: no
elaboration computes a hash by the way. -/
@[irreducible] def Sys2Proof.Config.digest : Sys2Proof.Digest := Sys2Proof.Machine.Sha256.digest
end

