-- ==== Sys2Proof/Machine/KeyDerivation.lean ====
section
/-! DEFINITION. HASH and KSCHED, from the password to the single S-box (spec/41_key_derivation.md R89, R90). -/

namespace Sys2Proof.Machine

/-- KEY from PWD by a digest `D` (R89); PWD is left unchanged. Every choice of `D` is allowed (R88). -/
def hashKey (D : Digest) (s : State) : State := { s with key := D s.pwd }

/-- Step `i` of the permutation unit (R90): swap entries i and j = (i + KEY[i mod 32]) mod 256, both read before either is
written. -/
def swapStep (key : Vector Byte 32) (t : Nat → Byte) (i : Nat) : Nat → Byte :=
  let j := (i + (key[i % 32]'(Nat.mod_lt i (by decide))).toNat) % 256
  fun k => if k = i then t j else if k = j then t i else t k

/-- The single S-box of a key (R90): the identity table, then the 256 swaps in increasing order. -/
def singleSbox (key : Vector Byte 32) : Nat → Byte :=
  (List.range 256).foldl (swapStep key) (fun i => BitVec.ofNat 8 i)

/-- Write the single S-box of KEY to SBOX, every byte of it (R90). -/
def scheduleSbox (s : State) : State :=
  { s with mem := s.mem.fill Config.sboxBase Config.sboxBytes (singleSbox s.key) }

/-- `Exec(HASH, 0)` (R89). -/
def execHash (s : State) : Host.Outcome State Fault Refusal := .next (hashKey Config.digest s)

/-- `Exec(KSCHED, 0)` (R90). -/
def execKsched (s : State) : Host.Outcome State Fault Refusal := .next (scheduleSbox s)

end Sys2Proof.Machine
end

