-- ==== Sys2Proof/Machine/Expansion.lean ====
section
/-! DEFINITION. EXPAND and SETUP, from the single S-box to the sixteen round S-boxes (spec/42_sbox_expansion.md R94, R101). -/

namespace Sys2Proof.Machine

/-- The variables of EXPAND's second loop (R94): the destination buffer, held as the writes made to it, the newest first; the
destination index; and the shift. -/
structure Shuffle where
  dst : List (Nat × MByte)
  d : Nat
  shift : Nat
deriving DecidableEq, Repr

/-- One pass of the loop (R94): the source byte of position `s`, from the unshuffled copies (R95), goes to `d`. -/
def shuffleStep (src : Nat → MByte) (x : Shuffle) (s : Nat) : Shuffle where
  dst := (x.d, src s) :: x.dst
  d := (x.d + x.shift) % Config.flatBytes
  shift := if x.shift + 1 = Config.flatBytes then 1 else x.shift + 1

/-- The loop over the source positions below `n`, in increasing order (R94). -/
def shuffle (src : Nat → MByte) (n : Nat) : Shuffle :=
  (List.range n).foldl (shuffleStep src) ⟨[], 0, 1⟩

/-- Byte `k` of the destination buffer: the newest write to it, ⊥ where there is none. -/
def Shuffle.byte (x : Shuffle) (k : Nat) : MByte := (x.dst.lookup k).getD none

/-- Sixteen copies of SBOX, in order (R94). -/
def flatCopies (s : State) (k : Nat) : MByte := s.sbox (k % Config.sboxBytes)

/-- Whether a byte of SBOX, all of which EXPAND reads, has not been written (R40, R155). -/
def sboxUnknown (s : State) : Bool := (List.range Config.sboxBytes).any fun i => (s.sbox i).isNone

/-- Write the expansion of SBOX to RSBOX, every byte of it (R94). A byte copied from an unwritten SBOX byte is a free value,
and the fault is recorded (R40). -/
def expandSbox (s : State) : State :=
  let x := shuffle (flatCopies s) Config.flatBytes
  { s.record (sboxUnknown s) with
    mem := s.mem.fill Config.rsboxBase Config.flatBytes (fun k => s.lane k (x.byte k)) }

/-- The whole pipeline with a digest `D` (R101): each stage reads what the one before it wrote. -/
def setupTables (D : Digest) (s : State) : State :=
  expandSbox (scheduleSbox (hashKey D s))

/-- `Exec(EXPAND, 0)` (R94). -/
def execExpand (s : State) : Host.Outcome State Fault Refusal := .next (expandSbox s)

/-- `Exec(SETUP, 0)` (R101). -/
def execSetup (s : State) : Host.Outcome State Fault Refusal := .next (setupTables Config.digest s)

end Sys2Proof.Machine
end

