-- ==== Sys2Proof/Machine/RoundFunction.lean ====
section
/-! DEFINITION. The round function F and ROUNDF (spec/43_round_function.md R102, R108). F and the network are written once, over
any kind of byte: over plain bytes they are the document's functions, over possibly unwritten bytes they are what the
engine computes from RAM. -/

namespace Sys2Proof.Machine

/-- The two operations of the algorithm on bytes (R117): addition mod 256 and exclusive OR. -/
structure Arith (α : Type) where
  add : α → α → α
  xor : α → α → α

/-- Plain bytes: the carry of an addition is discarded (R104). -/
def Arith.byte : Arith Byte := ⟨fun x y => x + y, fun x y => x ^^^ y⟩

/-- An operation on bytes, where a result computed from an unwritten byte is itself unwritten (R40). -/
def liftByte (f : Byte → Byte → Byte) : MByte → MByte → MByte
  | some x, some y => some (f x y)
  | _, _ => none

/-- Possibly unwritten bytes. -/
def Arith.mbyte : Arith MByte := ⟨liftByte Arith.byte.add, liftByte Arith.byte.xor⟩

variable {α : Type}

/-- The round function `F(h, S)` (R102): the running index adds the half-block's bytes, the last one first (R103), and never
an S-box output. -/
def F (A : Arith α) (h : Half α) (S : α → α) : Half α :=
  let idx0 := h.b3
  let idx1 := A.add idx0 h.b2
  let idx2 := A.add idx1 h.b1
  let idx3 := A.add idx2 h.b0
  ⟨S idx0, S idx1, S idx2, S idx3⟩

/-- Round S-box `r` as F reads it from RAM: an unknown index gives an unknown byte (R40). -/
def State.roundSbox (s : State) (r : Nat) (x : MByte) : MByte :=
  x.bind fun i => s.rsbox r i.toNat

/-- `Exec(ROUNDF, r)` (R108): DATA1 becomes F of DATA0's bytes with round S-box r. DATA0 is unchanged. -/
def execRoundf (r : BitVec 4) (s : State) : Host.Outcome State Fault Refusal :=
  let o := F .mbyte (s.data.left.map some) (s.roundSbox r.toNat)
  .next { s.record o.unknown with data := ⟨s.data.left, s.laneHalf 4 o⟩ }

end Sys2Proof.Machine
end

