-- ==== Sys2Proof/Machine/Feistel.lean ====
section
/-! DEFINITION. ENC and DEC, the forward and inverse 16-round Feistel network (spec/44_feistel_network.md R110, R111). -/

namespace Sys2Proof.Machine

variable {α : Type}

/-- Round `r` of ENC (R110): both halves of the old block are read before either is replaced (R112). -/
def encRound (A : Arith α) (S : Nat → α → α) (b : Block α) (r : Nat) : Block α :=
  ⟨b.right, b.left.zip A.xor (F A b.right (S r))⟩

/-- Round `r` of DEC (R111): F of the LEFT half. -/
def decRound (A : Arith α) (S : Nat → α → α) (b : Block α) (r : Nat) : Block α :=
  ⟨b.right.zip A.xor (F A b.left (S r)), b.left⟩

/-- Rounds 0 to 15 in increasing order, with no swap after the last (R110, R113). -/
def encNetwork (A : Arith α) (S : Nat → α → α) (b : Block α) : Block α :=
  (List.range Config.rounds).foldl (encRound A S) b

/-- Rounds 15 down to 0, with no swap after the last (R111, R113). -/
def decNetwork (A : Arith α) (S : Nat → α → α) (b : Block α) : Block α :=
  (List.range Config.rounds).reverse.foldl (decRound A S) b

/-- DATA as the operand of the network: every byte of it is known. -/
def State.operandBlock (s : State) : Block MByte := ⟨s.data.left.map some, s.data.right.map some⟩

/-- Write the network's result back to DATA (R109). A byte computed from an unwritten RAM byte is a free value, and the
fault is recorded (R40). -/
def State.storeBlock (s : State) (b : Block MByte) : State :=
  { s.record (b.left.unknown || b.right.unknown) with data := ⟨s.laneHalf 0 b.left, s.laneHalf 4 b.right⟩ }

/-- `Exec(ENC, 0)` (R110). -/
def execEnc (s : State) : Host.Outcome State Fault Refusal :=
  .next (s.storeBlock (encNetwork .mbyte s.roundSbox s.operandBlock))

/-- `Exec(DEC, 0)` (R111). -/
def execDec (s : State) : Host.Outcome State Fault Refusal :=
  .next (s.storeBlock (decNetwork .mbyte s.roundSbox s.operandBlock))

end Sys2Proof.Machine
end

