-- ==== Sys2Proof/Machine/Dispatch.lean ====
section
/-! DEFINITION. `Exec(op, r)`, one arm per command (spec/40_command_control.md R79). -/

namespace Sys2Proof.Machine

/-- The completion of a command, without the lifecycle writes (R79). -/
def exec (i : Instr) (s : State) : Host.Outcome State Fault Refusal :=
  match i with
  | .nop => Sys2Proof.Machine.execNop s
  | .pwdclr => Sys2Proof.Machine.execPwdclr s
  | .hash => Sys2Proof.Machine.execHash s
  | .ksched => Sys2Proof.Machine.execKsched s
  | .expand => Sys2Proof.Machine.execExpand s
  | .setup => Sys2Proof.Machine.execSetup s
  | .enc => Sys2Proof.Machine.execEnc s
  | .dec => Sys2Proof.Machine.execDec s
  | .roundf r => Sys2Proof.Machine.execRoundf r s

end Sys2Proof.Machine
end

