-- ==== Sys2Proof/Machine/HostPort.lean ====
section
/-! DEFINITION. The host's port: one read or write of a 32-bit register (spec/20_memory.md R57, R58, spec/60_exceptions.md R139). -/

namespace Sys2Proof.Machine

namespace State

/-- A read of a protected register: an unspecified word while BUSY = 1, otherwise what `f` reads (R56). The draw is the
model's own; the device's state does not change. -/
def readIfIdle (s : State) (f : State → Word × State) : Word × State :=
  if s.busy then (Config.freeWord s.draws, { s with draws := s.draws + 1 }) else f s

/-- A window word (R49, R57). A ⊥ byte reads as a free value in its lane, and the fault is recorded (R40). -/
def readWindow (s : State) (a : Nat) : Word × State :=
  let h : Half MByte := ⟨s.mem.read a, s.mem.read (a + 1), s.mem.read (a + 2), s.mem.read (a + 3)⟩
  ((s.laneHalf 0 h).word, s.record h.unknown)

end State

/-- The word a read of a register returns, and the state after it (R57). -/
def readReg : Reg → State → Word × State
  | .id, s => (Config.idValue, s)
  | .version, s => (Config.versionValue, s)
  | .cmd, s => (0, s)
  | .status, s => (s.statusWord, s)
  | .inten, s => (s.intenWord, s)
  | .pwdData, s => (0, s)
  | .pwdLen, s => s.readIfIdle fun s => (BitVec.ofNat 32 s.pwd.length, s)
  | .key k, s => s.readIfIdle fun s => (keyWord s.key k, s)
  | .data0, s => s.readIfIdle fun s => (s.data.left.word, s)
  | .data1, s => s.readIfIdle fun s => (s.data.right.word, s)
  | .sbox w, s => s.readIfIdle fun s => s.readWindow (sboxWord w)
  | .rsbox w, s => s.readIfIdle fun s => s.readWindow (rsboxWord w)

/-- `MemRead(a, 4)` (R57): a misaligned or unmapped offset reads 0 (R52, R53). -/
def memRead (a : Offset) (s : State) : Word × State :=
  match Reg.ofOffset a with
  | none => (0, s)
  | some r => readReg r s

/-- The state after a write of `v` to a register (R58). -/
def writeReg : Reg → Word → State → State
  | .id, _, s => s.raise .access
  | .version, _, s => s.raise .access
  | .pwdLen, _, s => s.raise .access
  | .status, v, s => s.writeStatus v
  | .inten, v, s => s.writeInten v
  | .cmd, v, s => s.ifIdle fun s => s.submit v
  | .pwdData, v, s => s.ifIdle fun s => s.absorb (byteOf 0 v)
  | .key k, v, s => s.ifIdle fun s => { s with key := setKeyWord s.key k v }
  | .data0, v, s => s.ifIdle fun s => { s with data := ⟨.ofWord v, s.data.right⟩ }
  | .data1, v, s => s.ifIdle fun s => { s with data := ⟨s.data.left, .ofWord v⟩ }
  | .sbox w, v, s => s.ifIdle fun s => { s with mem := s.mem.writeWord (sboxWord w) v }
  | .rsbox w, v, s => s.ifIdle fun s => { s with mem := s.mem.writeWord (rsboxWord w) v }

/-- `MemWrite(a, 4, v)` (R58): a misaligned or unmapped offset raises ACCESS (R52, R53, R137). -/
def memWrite (a : Offset) (v : Word) (s : State) : State :=
  match Reg.ofOffset a with
  | none => s.raise .access
  | some r => writeReg r v s

/-- One host transaction, complete before the next begins (R51, R62). The host keeps the word a read returns. -/
def hostStep (t : Txn) (s : State) : State :=
  match t with
  | .read a => { (memRead a s).2 with reply := some (memRead a s).1 }
  | .write a v => memWrite a v s

end Sys2Proof.Machine
end

