-- ==== Sys2Proof/Machine/Engine.lean ====
section
/-! DEFINITION. The engine's step, the completion of the command in flight (spec/40_command_control.md R79), and one step of the device:
the next event of the interleaving (spec/10_state.md R20, spec/60_exceptions.md R140). Both take the parameter `DIGEST` as an
argument (spec/00_scope.md R10); Machine/Step.lean is the device with its own digest. -/

namespace Sys2Proof.Machine

/-- `Exec(op, r)` of a device whose `DIGEST` is `D` (R10, R79, R88). `exec` is this with `Config.digest`. -/
def execAt (D : Digest) (i : Instr) (s : State) : Host.Outcome State Fault Refusal :=
  match i with
  | .nop => execNop s
  | .pwdclr => execPwdclr s
  | .hash => .next (hashKey D s)
  | .ksched => execKsched s
  | .expand => execExpand s
  | .setup => .next (setupTables D s)
  | .enc => execEnc s
  | .dec => execDec s
  | .roundf r => execRoundf r s

/-- The lifecycle writes after `Exec` (R79); a stop, which no command has, would be passed on. -/
def finish : Host.Outcome State Fault Refusal → Host.Outcome State Fault Refusal
  | .next t => .next t.complete
  | .fault f => .fault f
  | .refused r => .refused r

/-- `EngineStep()` (R79), enabled exactly when CUR ≠ none; a turn of the engine with no command in flight changes
nothing (R149). -/
def engineStep (D : Digest) (s : State) : Host.Outcome State Fault Refusal :=
  match s.cur with
  | none => .next s
  | some i => finish (execAt D i s)

/-- One step. The head of `inputs` says who moves (R20, R140). With no event to come, a command in flight completes (R81) and
an idle device keeps all its state (R149). -/
def stepAt (D : Digest) (s : State) : Host.Outcome State Fault Refusal :=
  match s.inputs with
  | [] => engineStep D s
  | .engine :: rest => engineStep D { s with inputs := rest }
  | .host t :: rest => .next (hostStep t { s with inputs := rest })
  | .reset :: rest => .next (State.resetEvent { s with inputs := rest })

end Sys2Proof.Machine
end

