-- ==== Sys2Proof/Machine/Step.lean ====
section
/-! DEFINITION. One step of the device, with the digest this hardware takes (spec/00_scope.md R10, spec/41_key_derivation.md R88), and a
command word put where it runs. -/

namespace Sys2Proof.Machine

/-- One step of the device (R20, R88). -/
def step (s : State) : Host.Outcome State Fault Refusal := stepAt Config.digest s

/-- The command word in the low `nbits` bits of `w`, put where the very next step runs it: a command in flight, as its accept
leaves it (R78), and the engine's turn. An Illegal word never gets that far (R77): its CMD write is the next event of an
idle device, and the next step refuses it with ILLEGAL_CMD. -/
def State.withFetchWord (s : State) (nbits w : Nat) : State :=
  match decodeTableWord nbits w with
  | some i => { s.accept i with inputs := .engine :: s.inputs }
  | none =>
    { s with
      cur := none
      busy := false
      inputs := .host (.write Reg.cmd.offset (BitVec.ofNat 32 (w % 2 ^ nbits))) :: s.inputs }

end Sys2Proof.Machine
end

