-- ==== Sys2Proof/Machine/Driver.lean ====
section
/-! DEFINITION. The host software that drives the device: padding and the ECB driver (spec/45_host_protocol.md R118 to R129). It is no
part of the device (spec/00_scope.md R5): `step` does not use it. A driver's transactions are `hostStep`, and a command in
flight completes by `engineStep`, the two functions that `step` is made of. Every call takes the device's digest (R10). -/

namespace Sys2Proof.Machine.Driver

open Sys2Proof.Config (UnpadMode)

/-- Why a driver call fails; nothing it returns may then be used. -/
inductive Failure where
  /-- A ciphertext whose length is not a multiple of 8 (R124). -/
  | invalidCiphertextLength
  /-- A password longer than PWD_MAX (R128). -/
  | passwordTooLong
  /-- ERRF = 1 at the end of the call (R128). -/
  | engineError
  /-- `remove_padding` of a buffer whose length is not a multiple of 8: outside R120, refused. -/
  | unpadLength
  /-- FAITHFUL removal on a last byte whose treatment is in no source: refused (R122). -/
  | unpadUnknown
  /-- The device stopped; no step of this model does. -/
  | stopped
deriving DecidableEq, Repr

/-- `add_padding` (R118): n copies of the byte n, n = 8 - (length mod 8). -/
def addPadding (m : List Byte) : List Byte :=
  let n := 8 - m.length % 8
  m ++ List.replicate n (BitVec.ofNat 8 n)

/-- The COUNT check (R121): only the last byte is looked at. -/
def removeCount (p : List Byte) (last : Byte) : List Byte :=
  if last.toNat < 1 ∨ 8 < last.toNat then p else p.take (p.length - last.toNat)

/-- The FAITHFUL check (R122): a last byte that decodes to a character other than a digit leaves the buffer unchanged. -/
def removeFaithful (p : List Byte) (last : Byte) : Except Failure (List Byte) :=
  if last.toNat ≤ 0x2F ∨ (0x3A ≤ last.toNat ∧ last.toNat ≤ 0x7F) then .ok p else .error .unpadUnknown

/-- `remove_padding` (R119, R120) with the check that `UNPAD_MODE` chooses. -/
def removePadding (mode : UnpadMode) (p : List Byte) : Except Failure (List Byte) :=
  if p.length % 8 ≠ 0 then .error .unpadLength
  else match p.getLast?, mode with
    | none, _ => .ok p
    | some last, .count => .ok (removeCount p last)
    | some last, .faithful => removeFaithful p last

/-- The consecutive 8-byte blocks of a buffer (R123); a shorter rest is no block. -/
def blocksOf : List Byte → List (Block Byte)
  | b0 :: b1 :: b2 :: b3 :: b4 :: b5 :: b6 :: b7 :: rest => ⟨⟨b0, b1, b2, b3⟩, ⟨b4, b5, b6, b7⟩⟩ :: blocksOf rest
  | _ => []

/-- `WR reg, v` (spec/30_encoding.md R75). -/
def wr (r : Reg) (v : Word) (s : State) : State := hostStep (.write r.offset v) s

/-- `RD reg` (R75): the word read, and the state after it. -/
def rd (r : Reg) (s : State) : Word × State :=
  let t := hostStep (.read r.offset) s
  (t.reply.getD 0, t)

/-- `WAIT` (spec/30_encoding.md R76): the engine completes (R81), and the last poll of STATUS reads BUSY = 0.
DESIGN CHOICE: the engine moves here and nowhere else in a call. So a call that starts while BUSY = 1, of which R123 says nothing
and where R140 admits both orders, has its CMD PWDCLR refused before the old command completes, and ends in `engineError`
(notes/assumptions/12.md). -/
def wait (D : Digest) (s : State) : Except Failure State :=
  match engineStep D s with
  | .next t => .ok (rd .status t).2
  | .fault _ => .error .stopped
  | .refused _ => .error .stopped

/-- `CMD i; WAIT` (R76). -/
def cmd (D : Digest) (i : Instr) (s : State) : Except Failure State := wait D (wr .cmd (encode i) s)

/-- `PWDB b0 b1 …` (R76). -/
def pwdb (pw : List Byte) (s : State) : State :=
  pw.foldl (fun s b => wr .pwdData (b.setWidth 32) s) s

/-- `CLRST` (R76): clear DONE and ERRF. -/
def clrst (s : State) : State := wr .status 0x00000006 s

/-- The start of a call (R123, R124): a new password and its tables. -/
def prepare (D : Digest) (pw : List Byte) (s : State) : Except Failure State :=
  (cmd D .pwdclr s).bind fun s => cmd D .setup (pwdb pw s)

/-- One block through the engine (R123, R124): the bytes of DATA0 and DATA1 after the command. -/
def throughEngine (D : Digest) (i : Instr) (b : Block Byte) (s : State) : Except Failure (Block Byte × State) :=
  (cmd D i (wr .data1 b.right.word (wr .data0 b.left.word s))).map fun s =>
    let x := rd .data0 s
    let y := rd .data1 x.2
    (⟨.ofWord x.1, .ofWord y.1⟩, y.2)

/-- The blocks of a buffer in order, each on its own: ECB, with no chaining and no nonce (R125). -/
def allBlocks (D : Digest) (i : Instr) : List (Block Byte) → State → Except Failure (List Byte × State)
  | [], s => .ok ([], s)
  | b :: rest, s =>
    (throughEngine D i b s).bind fun x =>
      (allBlocks D i rest x.2).map fun y => (x.1.toList ++ y.1, y.2)

/-- A whole call on the device (R123, R124, R128): prepare, every block, and STATUS.ERRF must be 0 at the end. -/
def call (D : Digest) (i : Instr) (pw buffer : List Byte) (s : State) : Except Failure (List Byte × State) :=
  if Config.pwdMax < pw.length then .error .passwordTooLong
  else (prepare D pw s).bind fun s =>
    (allBlocks D i (blocksOf buffer) s).bind fun x =>
      let y := rd .status x.2
      if y.1.getLsbD 2 then .error .engineError else .ok (x.1, y.2)

/-- `encrypt` (R123): the ciphertext and the device's state after the call. -/
def encrypt (D : Digest) (m pw : List Byte) (s : State) : Except Failure (List Byte × State) :=
  call D .enc pw (addPadding m) s

/-- `decrypt` (R124): the length is checked before any engine access. -/
def decrypt (D : Digest) (mode : UnpadMode) (c pw : List Byte) (s : State) : Except Failure (List Byte × State) :=
  if c.length % 8 ≠ 0 then .error .invalidCiphertextLength
  else (call D .dec pw c s).bind fun x => (removePadding mode x.1).map fun p => (p, x.2)

end Sys2Proof.Machine.Driver
end

