-- ==== Sys2Proof/Safety.lean ====
section
/-! DEFINITION. What a safe run is, and the words in which claims are stated: the invariants of every reachable state
(spec/10_state.md R45), a step that draws no free value (R16), the register map by numbers (spec/20_memory.md
R47), and the closed forms of the algorithm. Nothing of the machine uses this file. -/

namespace Sys2Proof.Machine

namespace State

/-- The invariants of R45, and the canonical form of the RAMs. -/
structure Inv (s : State) : Prop where
  /-- BUSY = 1 exactly when CUR ≠ none. -/
  busyAgrees : s.busy = s.cur.isSome
  /-- BUSY = 1 implies DONE = 0. -/
  busyNotDone : s.busy = true → s.done = false
  /-- ERRF = 0 implies ERRCODE = 0. -/
  noErrorNoCode : s.errf = false → s.errcode = 0
  /-- ERRCODE is in 0..4. -/
  codeInRange : s.errcode.toNat ≤ 4
  /-- `len(PWD) ≤ PWD_MAX`. -/
  pwdBounded : s.pwd.length ≤ 4294967295
  /-- The RAMs are in canonical form. -/
  memWf : s.mem.wf

/-- Going from `s` to `t` drew no free value (R16): a command or a read used no unwritten RAM byte (R40), and no protected
register was read while BUSY = 1 (R56). -/
def DrawsNothing (s t : State) : Prop := t.draws = s.draws

/-- Every RAM byte has been written since the last reset. -/
def RamWritten (s : State) : Prop := ∀ a, isRamOffset a = true → (s.mem.read a).isSome = true

/-- One step, with digest `D`, in which `e` comes next, before the events still to come. -/
def feed (s : State) (D : Digest) (e : Event) : Host.Outcome State Fault Refusal := stepAt D { s with inputs := e :: s.inputs }

/-- The state with error code `c` recorded, unless an error is recorded already (R133). -/
def withError (s : State) (c : BitVec 4) : State := if s.errf then s else { s with errf := true, errcode := c }

/-- The next step is the completion of command `i` (R79). -/
def Completes (s : State) (i : Instr) : Prop := s.cur = some i ∧ (s.inputs = [] ∨ ∃ rest, s.inputs = .engine :: rest)

/-- The next step is a host write of `v` to offset `a`. -/
def Writes (s : State) (a : Nat) (v : Word) : Prop := ∃ o rest, o.toNat = a ∧ s.inputs = .host (.write o v) :: rest

/-- The next step is a reset. -/
def Resets (s : State) : Prop := ∃ rest, s.inputs = .reset :: rest

/-- The RAM bytes that F reads for half-block `h` in round S-box `r`, by R102's closed form. -/
def roundBytes (s : State) (r : Nat) (h : Half Byte) : Half MByte :=
  ⟨s.rsbox r h.b3.toNat, s.rsbox r ((h.b3.toNat + h.b2.toNat) % 256),
   s.rsbox r ((h.b3.toNat + h.b2.toNat + h.b1.toNat) % 256),
   s.rsbox r ((h.b3.toNat + h.b2.toNat + h.b1.toNat + h.b0.toNat) % 256)⟩

end State

/-- The machine with digest `D` (R10): `core` is this with `Config.digest`. -/
def coreAt (D : Digest) : Host.Core :=
  { State := State, Fault := Fault, Refusal := Refusal, step := stepAt D, reset := State.reset }

/-- An aligned offset with no register (R47). -/
abbrev unmapped (a : Nat) : Prop :=
  a % 4 = 0 ∧ (a = 0x001C ∨ (0x0048 ≤ a ∧ a ≤ 0x0FFC) ∨ (0x1100 ≤ a ∧ a ≤ 0x1FFC) ∨ (0x3000 ≤ a ∧ a ≤ 0x3FFC))

/-- The offset of a word of KEY, DATA, SBOX or RSBOX (R47). -/
abbrev byteRegister (a : Nat) : Prop :=
  a % 4 = 0 ∧ ((0x0020 ≤ a ∧ a ≤ 0x0044) ∨ (0x1000 ≤ a ∧ a ≤ 0x10FC) ∨ (0x2000 ≤ a ∧ a ≤ 0x2FFC))

/-- The offset of a protected register that can be written (R55). -/
abbrev protectedForWrite (a : Nat) : Prop := a = 0x0008 ∨ a = 0x0014 ∨ byteRegister a

/-- The offset of a register that is protected for reads (R56). -/
abbrev protectedForRead (a : Nat) : Prop := a = 0x0018 ∨ byteRegister a

/-- The words that Decode calls Illegal (R134). -/
abbrev illegalWord (v : Word) : Prop :=
  v.extractLsb' 8 24 ≠ 0 ∨ 9 ≤ (v.extractLsb' 0 4).toNat ∨ (v.extractLsb' 4 4 ≠ 0 ∧ v.extractLsb' 0 4 ≠ 8)

/-- `T(s)`, the destination of source position `s` in the expansion (R96). -/
def destination (s : Nat) : Nat := s * (s + 1) / 2 % 4096

/-- The exclusive OR of two half-blocks, byte by byte (R12). -/
def xorHalf (x y : Half Byte) : Half Byte := ⟨x.b0 ^^^ y.b0, x.b1 ^^^ y.b1, x.b2 ^^^ y.b2, x.b3 ^^^ y.b3⟩

end Sys2Proof.Machine
end

