-- ==== Sys2Proof/Certificates/Slice0/Obligations.lean ====
section
/-! DEFINITION. The statements for the provers, in the order of spec/: registers and state, the port, the commands, errors, reset,
and the host's driver. -/

open Sys2Proof Sys2Proof.Machine

/-! ### Encoding -/

/-- R72, the whole decoder: on every word, and that exactly the 24 listed words are commands. -/
def Obligations.DecodeFollowsTheOpcodeMap : Prop :=
  ∀ v : Word,
    ((decode v).toOption =
      if v.extractLsb' 8 24 ≠ 0 then none
      else if v.extractLsb' 0 4 = 8 then some (.roundf (v.extractLsb' 4 4))
      else if v.extractLsb' 0 4 ≤ 7 ∧ v.extractLsb' 4 4 = 0 then
        [Instr.nop, .pwdclr, .hash, .ksched, .expand, .setup, .enc, .dec][(v.extractLsb' 0 4).toNat]?
      else none) ∧
    ((decode v).toOption.isSome = true ↔ v.toNat ≤ 7 ∨ ∃ r, r < 16 ∧ v.toNat = 8 + 16 * r)

/-- Decode and encode agree in both directions: a word decodes to a command exactly when it is that command's word. -/
def Obligations.DecodeAndEncodeAgree : Prop :=
  ∀ (v : Word) (i : Instr), decode v = .ok i ↔ v = encode i

/-- The 24 words of the column "command word(s)" of R71, ROUNDF's written 8 + 16 r, and three Illegal words (R72, R73), one for
each of the decoder's checks. -/
def Obligations.KnownCommandWordsDecode : Prop :=
  decodeTableWord 32 0x00000000 = some .nop ∧ decodeTableWord 32 0x00000001 = some .pwdclr ∧
  decodeTableWord 32 0x00000002 = some .hash ∧ decodeTableWord 32 0x00000003 = some .ksched ∧
  decodeTableWord 32 0x00000004 = some .expand ∧ decodeTableWord 32 0x00000005 = some .setup ∧
  decodeTableWord 32 0x00000006 = some .enc ∧ decodeTableWord 32 0x00000007 = some .dec ∧
  (∀ r, r < 16 → decodeTableWord 32 (0x00000008 + 16 * r) = some (.roundf (BitVec.ofNat 4 r))) ∧
  decodeTableWord 32 0x00000009 = none ∧ decodeTableWord 32 0x00000016 = none ∧ decodeTableWord 32 0x00000108 = none

/-! ### Reset, invariants, and what a step can do -/

/-- R44: the value of every piece of state after reset. -/
def Obligations.ResetStateIsTheTableOfResetValues : Prop :=
  let s := State.reset
  s.statusWord = 0 ∧ s.intenWord = 0 ∧ s.irq = false ∧ s.pwd = [] ∧ (∀ k, (h : k < 32) → s.key[k] = 0) ∧
  s.data = ⟨⟨0, 0, 0, 0⟩, ⟨0, 0, 0, 0⟩⟩ ∧ (∀ i, i < 256 → s.sbox i = none) ∧
  (∀ k, k < 4096 → s.rsboxFlat k = none) ∧ s.cur = none ∧
  (∀ a : Offset, a.toNat = 0x0000 → (memRead a s).1 = 0x45444553) ∧
  (∀ a : Offset, a.toNat = 0x0004 → (memRead a s).1 = 0x00010000) ∧
  (∀ a : Offset, a.toNat = 0x0018 ∨ (0x0020 ≤ a.toNat ∧ a.toNat ≤ 0x0044 ∧ a.toNat % 4 = 0) → (memRead a s).1 = 0)

/-- R150, R151: a reset gives every piece of the device's state its reset value, whatever was running; the command in flight
never completes. That the recorded fault and the draws survive it is the model's own, notes/assumptions/1.md, and so is that
the engine's turn with CUR = none changes nothing, notes/assumptions/5.md. -/
def Obligations.ResetAbandonsTheCommandInFlight : Prop :=
  ∀ (D : Digest) (s : State), ∃ t, s.feed D .reset = .next t ∧
    t = { State.reset with fault := s.fault, draws := s.draws, reply := s.reply, inputs := s.inputs } ∧
    t.feed D .engine = .next t

/-- The state after reset satisfies the invariants. -/
def Obligations.ResetSatisfiesTheInvariants : Prop := State.reset.Inv

/-- R45 and the canonical form of the RAMs, from every state that satisfies them, reachable or not, and for every digest. -/
def Obligations.EveryStepKeepsTheInvariants : Prop :=
  ∀ (D : Digest) (s t : State), s.Inv → stepAt D s = .next t → t.Inv

/-- R45, of every state that a run from reset reaches, whatever the host, the engine and the reset input do. -/
def Obligations.ReachableStatesSatisfyTheInvariants : Prop :=
  ∀ (D : Digest) (es : List Event) (n : Nat) (t : State), Host.Core.run (coreAt D) n { State.reset with inputs := es } = .next t →
    (t.busy = true ↔ t.cur ≠ none) ∧ (t.busy = true → t.done = false) ∧ (t.errf = false → t.errcode = 0) ∧
    t.errcode ∈ [0, 1, 2, 3, 4] ∧ t.pwd.length ≤ 2 ^ 32 - 1

/-- R80: every command completes on every state and raises no error. R131: nothing stops the device. -/
def Obligations.NothingStopsTheDevice : Prop :=
  ∀ D : Digest, (∀ i s, ∃ t, execAt D i s = .next t ∧ t.errf = s.errf ∧ t.errcode = s.errcode) ∧
    (∀ s, ∃ t, stepAt D s = .next t)

/-- R40: a fault, once recorded, is never cleared, not even by a reset. -/
def Obligations.RecordedFaultIsNeverCleared : Prop :=
  ∀ (D : Digest) (s t : State) (f : Fault), stepAt D s = .next t → s.fault = some f → t.fault = some f

/-- R40, R155: while every RAM byte is written, nothing records a fault, and only a reset unwrites a byte. That a reset, too,
leaves the record as it was is the model's own, notes/assumptions/1.md. -/
def Obligations.WrittenRamRecordsNoFault : Prop :=
  ∀ (D : Digest) (s t : State), s.RamWritten → stepAt D s = .next t → t.fault = s.fault ∧ (¬ s.Resets → t.RamWritten)

/-! ### The lifecycle -/

/-- R78: what the accept of a command changes, and that it is accepted while ERRF = 1 as well. -/
def Obligations.AcceptWritesTheLifecycle : Prop :=
  ∀ (D : Digest) (s : State) (a : Offset) (i : Instr), a.toNat = 0x0008 → s.busy = false →
    s.feed D (.host (.write a (encode i))) = .next { s with cur := some i, busy := true, done := false }

/-- R79: with a command in flight the engine's step is `Exec` and then the three lifecycle writes. That its turn with CUR = none
changes nothing is the model's, notes/assumptions/5.md. -/
def Obligations.EngineStepCompletesTheCommandInFlight : Prop :=
  ∀ D : Digest, (∀ s i, s.cur = some i →
    s.feed D .engine = match execAt D i s with
      | .next t => .next { t with cur := none, busy := false, done := true }
      | .fault f => .fault f
      | .refused r => .refused r) ∧
  (∀ s : State, s.cur = none → s.feed D .engine = .next s)

/-- A word written to CMD that decodes to a command is run by the engine's next step, and so is a word put where the next step
runs it, notes/assumptions/4.md: for every digest, and by the device itself. -/
def Obligations.StepRunsTheDecodedCommand : Prop :=
  ∀ (D : Digest) (s : State) (a : Offset) (v : Word) (i : Instr), a.toNat = 0x0008 → s.busy = false → decode v = .ok i →
    let t := { s with cur := some i, busy := true, done := false }
    s.feed D (.host (.write a v)) = .next t ∧ t.feed D .engine = finish (execAt D i t) ∧
    stepAt D (s.withFetchWord 32 v.toNat) = finish (execAt D i t) ∧
    step (s.withFetchWord 32 v.toNat) = finish (exec i t)

/-- R149: an idle device keeps all its state. That the device moves on by itself when no event is to come is the model's,
notes/assumptions/5.md. -/
def Obligations.IdleDeviceKeepsItsState : Prop :=
  ∀ (D : Digest) (s : State), s.inputs = [] →
    (s.cur = none → stepAt D s = .next s) ∧ stepAt D s = s.feed D .engine

/-- R81: when the host is silent, the command in flight completes (in the model's reading of weak fairness,
notes/assumptions/5.md). -/
def Obligations.CommandInFlightCompletes : Prop :=
  ∀ (D : Digest) (s : State), ∃ t, Host.Core.run (coreAt D) (s.inputs.length + 1) s = .next t ∧ t.cur = none ∧ t.inputs = []

/-- R55, R65: while a command runs, no host transaction changes a byte it reads or writes, or the command itself. -/
def Obligations.OperandsAreStableWhileBusy : Prop :=
  ∀ (D : Digest) (s t : State) (xs : List Txn) (rest : List Event), s.busy = true →
    Host.Core.run (coreAt D) xs.length { s with inputs := xs.map Event.host ++ rest } = .next t →
    t.busy = true ∧ t.cur = s.cur ∧ t.pwd = s.pwd ∧ t.key = s.key ∧ t.data = s.data ∧ t.mem = s.mem ∧ t.inputs = rest

/-- R140: a host write and a completion in either order. With the write first it is refused; with the engine first it takes
effect. -/
def Obligations.BothOrdersOfARaceAreAdmitted : Prop :=
  ∀ (D : Digest) (s : State) (a : Offset) (v : Word), a.toNat = 0x0040 → s.busy = true → s.cur = some .nop → s.errf = false →
    Host.Core.run (coreAt D) 2 { s with inputs := [.host (.write a v), .engine] }
      = .next { s with errf := true, errcode := 2, cur := none, busy := false, done := true, inputs := [] } ∧
    Host.Core.run (coreAt D) 2 { s with inputs := [.engine, .host (.write a v)] }
      = .next { s with
          data := ⟨⟨byteOf 0 v, byteOf 1 v, byteOf 2 v, byteOf 3 v⟩, s.data.right⟩
          cur := none, busy := false, done := true, inputs := [] }

/-! ### The host's port -/

/-- R52, R53: misaligned and unmapped accesses. -/
def Obligations.MisalignedAndUnmappedAccesses : Prop :=
  ∀ (D : Digest) (s : State) (a : Offset) (v : Word), (a.toNat % 4 ≠ 0 ∨ unmapped a.toNat) →
    s.feed D (.host (.read a)) = .next { s with reply := some 0 } ∧
    s.feed D (.host (.write a v)) = .next (s.withError 4)

/-- R24, R25, R54: the read-only and the write-only registers, whether or not BUSY = 1. -/
def Obligations.ReadOnlyAndWriteOnlyRegisters : Prop :=
  ∀ (D : Digest) (s : State) (a : Offset) (v : Word),
    (a.toNat = 0x0000 → s.feed D (.host (.read a)) = .next { s with reply := some 0x45444553 }) ∧
    (a.toNat = 0x0004 → s.feed D (.host (.read a)) = .next { s with reply := some 0x00010000 }) ∧
    (a.toNat = 0x0008 ∨ a.toNat = 0x0014 → s.feed D (.host (.read a)) = .next { s with reply := some 0 }) ∧
    (a.toNat = 0x0000 ∨ a.toNat = 0x0004 ∨ a.toNat = 0x0018 →
      s.feed D (.host (.write a v)) = .next (s.withError 4))

/-- R27: STATUS, read bit by bit, and written, at any time. -/
def Obligations.StatusRegister : Prop :=
  ∀ (D : Digest) (s : State) (a : Offset) (v : Word), a.toNat = 0x000C →
    (∃ w : Word, s.feed D (.host (.read a)) = .next { s with reply := some w } ∧
      w.getLsbD 0 = s.busy ∧ w.getLsbD 1 = s.done ∧ w.getLsbD 2 = s.errf ∧ w.getLsbD 3 = false ∧
      w.extractLsb' 4 4 = s.errcode ∧ w.extractLsb' 8 24 = 0) ∧
    s.feed D (.host (.write a v)) = .next { s with
      done := if v.getLsbD 1 then false else s.done
      errf := if v.getLsbD 2 then false else s.errf
      errcode := if v.getLsbD 2 then 0 else s.errcode }

/-- R31, R32, R141: INTEN, read and written at any time, and irq, which follows it at once. -/
def Obligations.IntenAndTheInterrupt : Prop :=
  ∀ (D : Digest) (s : State) (a : Offset) (v : Word), a.toNat = 0x0010 →
    (∃ w : Word, s.feed D (.host (.read a)) = .next { s with reply := some w } ∧
      w.getLsbD 0 = s.doneIe ∧ w.getLsbD 1 = s.errIe ∧ w.extractLsb' 2 30 = 0) ∧
    (∃ t, s.feed D (.host (.write a v)) = .next t ∧ t = { s with doneIe := v.getLsbD 0, errIe := v.getLsbD 1 } ∧
      t.irq = ((s.done && v.getLsbD 0) || (s.errf && v.getLsbD 1)))

/-- R55, R135: while BUSY = 1 every write to a writable protected register, an Illegal command word too, is dropped and raises
BUSY. -/
def Obligations.BusyRefusesProtectedWrites : Prop :=
  ∀ (D : Digest) (s : State) (a : Offset) (v : Word), s.busy = true → protectedForWrite a.toNat →
    s.feed D (.host (.write a v)) = .next (s.withError 2)

/-- R56: while BUSY = 1 a read of a protected register returns some word and changes nothing of the device; the count of draws
is the model's, notes/assumptions/8.md. -/
def Obligations.BusyReadsReturnSomeWord : Prop :=
  ∀ (D : Digest) (s : State) (a : Offset), s.busy = true → protectedForRead a.toNat →
    ∃ w n, s.feed D (.host (.read a)) = .next { s with reply := some w, draws := n }

/-- R57: what reads of PWD_LEN, KEY and DATA return while BUSY = 0. -/
def Obligations.IdleReadsOfTheRegisters : Prop :=
  ∀ (D : Digest) (s : State) (a : Offset), s.busy = false →
    (a.toNat = 0x0018 → s.pwd.length < 2 ^ 32 →
      ∃ w : Word, s.feed D (.host (.read a)) = .next { s with reply := some w } ∧ w.toNat = s.pwd.length) ∧
    (∀ k, (h : k < 8) → a.toNat = 0x0020 + 4 * k →
      ∃ w : Word, s.feed D (.host (.read a)) = .next { s with reply := some w } ∧
        byteOf 0 w = s.key[4 * k] ∧ byteOf 1 w = s.key[4 * k + 1] ∧
        byteOf 2 w = s.key[4 * k + 2] ∧ byteOf 3 w = s.key[4 * k + 3]) ∧
    (a.toNat = 0x0040 → s.feed D (.host (.read a)) = .next { s with reply := some s.data.left.word }) ∧
    (a.toNat = 0x0044 → s.feed D (.host (.read a)) = .next { s with reply := some s.data.right.word })

/-- R49: where byte i of SBOX and byte i of round S-box r stand in the windows, whether or not the word's other bytes are
written. -/
def Obligations.WindowLayout : Prop :=
  (∀ (D : Digest) (s : State) (a : Offset) (i : Nat) (b : Byte), s.busy = false → i < 256 → a.toNat = 0x1000 + 4 * (i / 4) →
    s.sbox i = some b → ∃ t w, s.feed D (.host (.read a)) = .next t ∧ t.reply = some w ∧ byteOf (i % 4) w = b) ∧
  (∀ (D : Digest) (s : State) (a : Offset) (r i : Nat) (b : Byte), s.busy = false → r < 16 → i < 256 →
    a.toNat = 0x2000 + 256 * r + 4 * (i / 4) → s.rsbox r i = some b →
    ∃ t w, s.feed D (.host (.read a)) = .next t ∧ t.reply = some w ∧ byteOf (i % 4) w = b)

/-- R40: a window read records the fault exactly when one of the word's four bytes is unwritten, and changes nothing of the
device. -/
def Obligations.WindowReadRecordsUnwrittenBytes : Prop :=
  ∀ (D : Digest) (s : State) (a : Offset), s.busy = false → a.toNat % 4 = 0 →
    ((0x1000 ≤ a.toNat ∧ a.toNat ≤ 0x10FC) ∨ (0x2000 ≤ a.toNat ∧ a.toNat ≤ 0x2FFC)) →
    ∃ t, s.feed D (.host (.read a)) = .next t ∧
      t = { s with reply := t.reply, fault := t.fault, draws := t.draws } ∧
      (∀ k, k < 4 → s.mem.read (a.toNat + k) = none → t.fault = some .unwrittenRam) ∧
      ((∀ k, k < 4 → (s.mem.read (a.toNat + k)).isSome = true) → t = { s with reply := t.reply })

/-- R58: which bytes an idle write of KEY, DATA0, DATA1 or a window word stores, and that it changes nothing else. -/
def Obligations.IdleWritesStoreTheirFourBytes : Prop :=
  ∀ (D : Digest) (s : State) (a : Offset) (v : Word), s.busy = false →
    (∀ k, k < 8 → a.toNat = 0x0020 + 4 * k → ∃ t, s.feed D (.host (.write a v)) = .next t ∧ t = { s with key := t.key } ∧
      ∀ i, (h : i < 32) → t.key[i] = if i / 4 = k then byteOf (i % 4) v else s.key[i]) ∧
    (a.toNat = 0x0040 → s.feed D (.host (.write a v))
      = .next { s with data := ⟨⟨byteOf 0 v, byteOf 1 v, byteOf 2 v, byteOf 3 v⟩, s.data.right⟩ }) ∧
    (a.toNat = 0x0044 → s.feed D (.host (.write a v))
      = .next { s with data := ⟨s.data.left, ⟨byteOf 0 v, byteOf 1 v, byteOf 2 v, byteOf 3 v⟩⟩ }) ∧
    (a.toNat % 4 = 0 → ((0x1000 ≤ a.toNat ∧ a.toNat ≤ 0x10FC) ∨ (0x2000 ≤ a.toNat ∧ a.toNat ≤ 0x2FFC)) →
      ∃ t, s.feed D (.host (.write a v)) = .next t ∧ t = { s with mem := t.mem } ∧
        ∀ x, t.mem.read x
          = if a.toNat ≤ x ∧ x < a.toNat + 4 then some (byteOf (x - a.toNat) v) else s.mem.read x)

/-- R58 and R57 together: the word written to KEY, DATA, SBOX or RSBOX is the word read back, and the read changes nothing
else. -/
def Obligations.ReadAfterWriteReturnsTheWord : Prop :=
  ∀ (D : Digest) (s : State) (a : Offset) (v : Word), s.busy = false → byteRegister a.toNat →
    ∃ t, s.feed D (.host (.write a v)) = .next t ∧ t.feed D (.host (.read a)) = .next { t with reply := some v }

/-- R59: no read changes any state of the device: the reply is the host's, and the record of R40 and the draws are the
model's, notes/assumptions/1.md. -/
def Obligations.ReadsChangeNoDeviceState : Prop :=
  ∀ (D : Digest) (s : State) (a : Offset), ∃ t, s.feed D (.host (.read a)) = .next t ∧
    t = { s with reply := t.reply, fault := t.fault, draws := t.draws }

/-- R86: a write of PWD_DATA. -/
def Obligations.PwdDataAbsorbsOneByte : Prop :=
  ∀ (D : Digest) (s : State) (a : Offset) (v : Word), a.toNat = 0x0014 →
    (s.busy = false → s.pwd.length ≠ 2 ^ 32 - 1 →
      s.feed D (.host (.write a v)) = .next { s with pwd := s.pwd ++ [v.extractLsb' 0 8] }) ∧
    (s.busy = false → s.pwd.length = 2 ^ 32 - 1 → s.feed D (.host (.write a v)) = .next (s.withError 3)) ∧
    (s.busy = true → s.feed D (.host (.write a v)) = .next (s.withError 2))

/-! ### Errors -/

/-- R134: an Illegal word written to CMD while BUSY = 0. -/
def Obligations.IllegalCommandWordIsRefused : Prop :=
  ∀ (D : Digest) (s : State) (a : Offset) (v : Word), a.toNat = 0x0008 → s.busy = false → illegalWord v →
    s.feed D (.host (.write a v)) = .next (s.withError 1)

/-- R139: the order of the checks of a write, and that an error already recorded is kept. -/
def Obligations.ErrorPriority : Prop :=
  ∀ (D : Digest) (s : State) (a : Offset) (v : Word), ∃ t, s.feed D (.host (.write a v)) = .next t ∧
    (s.errf = true → a.toNat ≠ 0x000C → t.errf = true ∧ t.errcode = s.errcode) ∧
    (s.errf = false →
      if a.toNat % 4 ≠ 0 ∨ unmapped a.toNat then t.errf = true ∧ t.errcode = 4
      else if a.toNat = 0x0000 ∨ a.toNat = 0x0004 ∨ a.toNat = 0x0018 then t.errf = true ∧ t.errcode = 4
      else if a.toNat = 0x000C ∨ a.toNat = 0x0010 then t.errf = false
      else if s.busy = true then t.errf = true ∧ t.errcode = 2
      else if a.toNat = 0x0008 ∧ illegalWord v then t.errf = true ∧ t.errcode = 1
      else if a.toNat = 0x0014 ∧ s.pwd.length = 2 ^ 32 - 1 then t.errf = true ∧ t.errcode = 3
      else t.errf = false)

/-- R30, R133: a step changes ERRF and ERRCODE only by recording a first error with a code of 1..4 in a host write, by the
host's write of STATUS with bit 2 = 1, or by a reset. -/
def Obligations.ErrorFieldsChangeOnlyByTheirRules : Prop :=
  ∀ (D : Digest) (s t : State), stepAt D s = .next t →
    (t.errf = s.errf ∧ t.errcode = s.errcode) ∨
    (s.errf = false ∧ t.errf = true ∧ t.errcode ∈ [1, 2, 3, 4] ∧ ∃ a v, s.Writes a v) ∨
    (t.errf = false ∧ t.errcode = 0 ∧ ((∃ v, s.Writes 0x000C v ∧ v.getLsbD 2 = true) ∨ s.Resets))

/-! ### The commands -/

/-- R84, R85, R89: NOP changes nothing, PWDCLR empties PWD and changes nothing else, HASH writes the digest of PWD to KEY and
changes nothing else. -/
def Obligations.NopPwdclrAndHash : Prop :=
  ∀ s, exec .nop s = .next s ∧ exec .pwdclr s = .next { s with pwd := [] } ∧
    exec .hash s = .next { s with key := Config.digest s.pwd }

/-- R90: SBOX is the table that the 256 swaps leave, for every sequence of tables that R90's loop runs through; no other RAM
byte and nothing else of the state changes. -/
def Obligations.KschedSwapsTheTable : Prop :=
  ∀ (s : State) (T : Nat → Nat → Byte), (∀ k, k < 256 → T 0 k = BitVec.ofNat 8 k) →
    (∀ i, i < 256 → ∀ k, k < 256 →
      let j := (i + (s.key[i % 32]'(Nat.mod_lt i (by decide))).toNat) % 256
      T (i + 1) k = if k = i then T i j else if k = j then T i i else T i k) →
    ∃ t, exec .ksched s = .next t ∧ t = { s with mem := t.mem } ∧ (∀ k, k < 256 → t.sbox k = some (T 256 k)) ∧
      ∀ x, ¬ (0x1000 ≤ x ∧ x < 0x1100) → t.mem.read x = s.mem.read x

/-- R92: after KSCHED each value stands at exactly one place of SBOX, for every KEY. -/
def Obligations.KschedGivesAPermutation : Prop :=
  ∀ s, ∃ t, exec .ksched s = .next t ∧ ∀ b : Byte, ∃! i, i < 256 ∧ t.sbox i = some b

/-- R96: the destination index and the shift when EXPAND writes source position `n`. -/
def Obligations.ShuffleIndexIsTriangular : Prop :=
  ∀ (src : Nat → MByte) (n : Nat), n ≤ 4095 →
    (shuffle src n).d = n * (n + 1) / 2 % 4096 ∧ (n ≤ 4094 → (shuffle src n).shift = n + 1) ∧
    (n = 4095 → (shuffle src n).shift = 1)

/-- R97: every destination is written exactly once, and EXPAND has the closed form, wherever the SBOX byte copied is written. -/
def Obligations.ExpandClosedForm : Prop :=
  (∀ k, k < 4096 → ∃! p, p < 4096 ∧ destination p = k) ∧
  ∀ s, ∃ t, exec .expand s = .next t ∧
    ∀ p b, p < 4096 → s.sbox (p % 256) = some b → t.rsboxFlat (destination p) = some b

/-- R94: EXPAND changes nothing outside RSBOX but the model's record of R40, which it writes exactly when a byte of SBOX is
unwritten. A byte copied from an unwritten one is stored as some byte, notes/assumptions/2.md. -/
def Obligations.ExpandChangesOnlyRsbox : Prop :=
  ∀ s, ∃ t, exec .expand s = .next t ∧ t = { s with mem := t.mem, fault := t.fault, draws := t.draws } ∧
    (∀ k, k < 4096 → (t.rsboxFlat k).isSome = true) ∧
    (∀ x, ¬ (0x2000 ≤ x ∧ x < 0x3000) → t.mem.read x = s.mem.read x) ∧
    ((∀ i, i < 256 → (s.sbox i).isSome = true) → t.fault = s.fault ∧ t.draws = s.draws) ∧
    (∀ i, i < 256 → s.sbox i = none → t.fault = some .unwrittenRam)

/-- R101: SETUP ends in the state of HASH, KSCHED and EXPAND one after another, for every digest. -/
def Obligations.SetupRunsTheThreeStages : Prop :=
  ∀ (D : Digest) (s : State), ∃ a b t, execAt D .hash s = .next a ∧ execAt D .ksched a = .next b ∧
    execAt D .expand b = .next t ∧ execAt D .setup s = .next t

/-- R88, R101: the tables that SETUP leaves, for every choice of `DIGEST`, and that SETUP is this pipeline with the device's
own; no byte of SBOX or RSBOX is left unwritten, and no fault is recorded. -/
def Obligations.SetupTablesForEveryDigest : Prop :=
  (∀ s, exec .setup s = .next (setupTables Config.digest s)) ∧
  ∀ (D : Digest) (s : State), let t := setupTables D s
    execAt D .setup s = .next t ∧ t = { s with key := D s.pwd, mem := t.mem } ∧ (∀ b : Byte, ∃! i, i < 256 ∧ t.sbox i = some b) ∧
    (∀ p, p < 4096 → t.rsboxFlat (destination p) = t.sbox (p % 256)) ∧ t.RamWritten

/-- R108, R102: ROUNDF, where the four bytes it reads are written: DATA1 is F of DATA0, and nothing else changes. -/
def Obligations.RoundfAppliesTheRoundFunction : Prop :=
  ∀ (s : State) (r : BitVec 4) (o : Half Byte), s.roundBytes r.toNat s.data.left = o.map some →
    exec (.roundf r) s = .next { s with data := ⟨s.data.left, o⟩ }

/-- R108, R40: ROUNDF, where one of the four bytes it reads is unwritten: it completes, the fault is recorded, the lanes that
were computed from written bytes are right, and nothing but DATA1 changes. -/
def Obligations.RoundfOnUnwrittenBytes : Prop :=
  ∀ (s : State) (r : BitVec 4), (s.roundBytes r.toNat s.data.left).unknown = true →
    ∃ t, exec (.roundf r) s = .next t ∧ t.fault = some .unwrittenRam ∧
      t = { s with data := ⟨s.data.left, t.data.right⟩, fault := t.fault, draws := t.draws } ∧
      (∀ b, (s.roundBytes r.toNat s.data.left).b0 = some b → t.data.right.b0 = b) ∧
      (∀ b, (s.roundBytes r.toNat s.data.left).b1 = some b → t.data.right.b1 = b) ∧
      (∀ b, (s.roundBytes r.toNat s.data.left).b2 = some b → t.data.right.b2 = b) ∧
      (∀ b, (s.roundBytes r.toNat s.data.left).b3 = some b → t.data.right.b3 = b)

/-- R105: which bytes of the half-block each output byte of F depends on. -/
def Obligations.RoundFunctionDependence : Prop :=
  ∀ (h g : Half Byte) (S : Byte → Byte), h.b3 = g.b3 →
    (F .byte h S).b0 = (F .byte g S).b0 ∧ (h.b2 = g.b2 → (F .byte h S).b1 = (F .byte g S).b1 ∧
      (h.b1 = g.b1 → (F .byte h S).b2 = (F .byte g S).b2))

/-- R110, R113: ENC, for the halves L and R that R113's recursion runs through, where the 64 bytes it reads are written. Nothing
but DATA changes. -/
def Obligations.EncRunsSixteenRounds : Prop :=
  ∀ (s : State) (L R Fo : Nat → Half Byte), L 0 = s.data.left → R 0 = s.data.right →
    (∀ r, r < 16 → s.roundBytes r (R r) = (Fo r).map some ∧ L (r + 1) = R r ∧ R (r + 1) = xorHalf (L r) (Fo r)) →
    exec .enc s = .next { s with data := ⟨L 16, R 16⟩ }

/-- R111: DEC, with L r and R r the halves after the round of index r, from r = 15 down, where the 64 bytes it reads are
written. Nothing but DATA changes. -/
def Obligations.DecRunsTheRoundsInReverse : Prop :=
  ∀ (s : State) (L R Fo : Nat → Half Byte), L 16 = s.data.left → R 16 = s.data.right →
    (∀ r, r < 16 → s.roundBytes r (L (r + 1)) = (Fo r).map some ∧ L r = xorHalf (R (r + 1)) (Fo r) ∧ R r = L (r + 1)) →
    exec .dec s = .next { s with data := ⟨L 0, R 0⟩ }

/-- R110, R111, R40: ENC and DEC complete on every state and change nothing but DATA; where the first unwritten byte is read in
round n, the fault is recorded. -/
def Obligations.EncAndDecOnUnwrittenBytes : Prop :=
  (∀ s i, i = .enc ∨ i = .dec → ∃ t, exec i s = .next t ∧
    t = { s with data := t.data, fault := t.fault, draws := t.draws }) ∧
  (∀ (s t : State) (L R Fo : Nat → Half Byte) (n : Nat), n < 16 → L 0 = s.data.left → R 0 = s.data.right →
    (∀ r, r < n → s.roundBytes r (R r) = (Fo r).map some ∧ L (r + 1) = R r ∧ R (r + 1) = xorHalf (L r) (Fo r)) →
    (s.roundBytes n (R n)).unknown = true → exec .enc s = .next t → t.fault = some .unwrittenRam) ∧
  (∀ (s t : State) (L R Fo : Nat → Half Byte) (n : Nat), n < 16 → L 16 = s.data.left → R 16 = s.data.right →
    (∀ r, n < r → r < 16 →
      s.roundBytes r (L (r + 1)) = (Fo r).map some ∧ L r = xorHalf (R (r + 1)) (Fo r) ∧ R r = L (r + 1)) →
    (s.roundBytes n (L (n + 1))).unknown = true → exec .dec s = .next t → t.fault = some .unwrittenRam)

/-- R114: DEC undoes ENC and ENC undoes DEC, whatever the round S-boxes hold, when no unwritten byte is read. -/
def Obligations.DecUndoesEncAndEncUndoesDec : Prop :=
  (∀ s t, exec .enc s = .next t → s.DrawsNothing t → exec .dec t = .next s) ∧
  (∀ s t, exec .dec s = .next t → s.DrawsNothing t → exec .enc t = .next s)

/-- R115: with every RSBOX byte 0, ENC and DEC leave DATA, and everything else, unchanged. -/
def Obligations.ZeroTablesLeaveDataUnchanged : Prop :=
  ∀ s, (∀ k, k < 4096 → s.rsboxFlat k = some 0) → exec .enc s = .next s ∧ exec .dec s = .next s

/-- R116: ENC and DEC depend only on DATA and RSBOX. -/
def Obligations.EncAndDecDependOnlyOnDataAndRsbox : Prop :=
  ∀ s u i, i = .enc ∨ i = .dec → s.data = u.data → (∀ k, k < 4096 → s.rsboxFlat k = u.rsboxFlat k) →
    ∃ t v, exec i s = .next t ∧ exec i u = .next v ∧ (s.DrawsNothing t → t.data = v.data)

/-! ### Whole-machine rules -/

/-- R157, R58: what can change KEY, SBOX, RSBOX, DATA and PWD. Derived tables are brought up to date by nothing else. -/
def Obligations.TablesChangeOnlyByTheirWriters : Prop :=
  ∀ (D : Digest) (s t : State), stepAt D s = .next t → s.Resets ∨
    ((t.key ≠ s.key → s.Completes .hash ∨ s.Completes .setup ∨ ∃ k v, k < 8 ∧ s.Writes (0x0020 + 4 * k) v) ∧
     (∀ i, i < 256 → t.sbox i ≠ s.sbox i →
      s.Completes .ksched ∨ s.Completes .setup ∨ ∃ v, s.Writes (0x1000 + 4 * (i / 4)) v) ∧
     (∀ k, k < 4096 → t.rsboxFlat k ≠ s.rsboxFlat k →
      s.Completes .expand ∨ s.Completes .setup ∨ ∃ v, s.Writes (0x2000 + 4 * (k / 4)) v) ∧
     (t.data ≠ s.data → s.Completes .enc ∨ s.Completes .dec ∨ (∃ r, s.Completes (.roundf r)) ∨
      ∃ a v, (a = 0x0040 ∨ a = 0x0044) ∧ s.Writes a v) ∧
     (t.pwd ≠ s.pwd → s.Completes .pwdclr ∨ ∃ v, s.Writes 0x0014 v))

/-- R34: no host transaction tells two passwords of one length apart: two runs that differ only in PWD's bytes stay so, and a
read that draws no free value returns the same word in both. Of a word that is itself a free value nothing is said; that the
two runs draw equally often and record alike is the model's own, notes/assumptions/2.md. -/
def Obligations.PasswordBytesCannotBeReadBack : Prop :=
  ∀ (D : Digest) (s : State) (pw : List Byte) (x : Txn), pw.length = s.pwd.length →
    ∃ t p r, s.feed D (.host x) = .next t ∧
      State.feed { s with pwd := pw } D (.host x) = .next { t with pwd := p, reply := r } ∧
      p.length = t.pwd.length ∧ (s.DrawsNothing t → r = t.reply)

/-! ### The host's driver -/

/-- R118: `add_padding`. -/
def Obligations.PaddingFillsTheLastBlock : Prop :=
  ∀ m : List Byte, let n := 8 - m.length % 8
    1 ≤ n ∧ n ≤ 8 ∧ Driver.addPadding m = m ++ List.replicate n (BitVec.ofNat 8 n) ∧
    (Driver.addPadding m).length % 8 = 0 ∧ (Driver.addPadding m).length = m.length + n

/-- R120, R121, R122: `remove_padding` in both modes, on every buffer. -/
def Obligations.RemovePaddingInBothModes : Prop :=
  (∀ mode, Driver.removePadding mode [] = .ok []) ∧
  (∀ mode p, p.length % 8 ≠ 0 → Driver.removePadding mode p = .error .unpadLength) ∧
  (∀ (p : List Byte) (n : Byte), (p ++ [n]).length % 8 = 0 →
    Driver.removePadding .count (p ++ [n])
      = .ok (if n.toNat < 1 ∨ 8 < n.toNat then p ++ [n] else (p ++ [n]).take ((p ++ [n]).length - n.toNat)) ∧
    Driver.removePadding .faithful (p ++ [n])
      = if n.toNat ≤ 0x2F ∨ (0x3A ≤ n.toNat ∧ n.toNat ≤ 0x7F) then .ok (p ++ [n]) else .error .unpadUnknown)

/-- R129's reason: COUNT takes off what `add_padding` put on, FAITHFUL takes nothing off. -/
def Obligations.RemovePaddingAfterAddPadding : Prop :=
  ∀ m, Driver.removePadding .count (Driver.addPadding m) = .ok m ∧
    Driver.removePadding .faithful (Driver.addPadding m) = .ok (Driver.addPadding m)

/-- R123, R125, R127, R128, for every digest: on an idle device with no error recorded, `encrypt` succeeds and raises no error,
and there is one function of the block, fixed by the password, that gives the ciphertext block by block in order. -/
def Obligations.EncryptIsElectronicCodebook : Prop :=
  ∀ (D : Digest) (pw : List Byte), pw.length ≤ 2 ^ 32 - 1 → ∃ E : Block Byte → Block Byte,
    ∀ (m : List Byte) (s : State), s.busy = false → s.errf = false →
      ∃ t, Driver.encrypt D m pw s
          = .ok (((Driver.blocksOf (Driver.addPadding m)).map fun b => (E b).toList).flatten, t) ∧
        t.busy = false ∧ t.errf = false ∧ t.fault = s.fault

/-- R124, R128: the checks that fail a driver call before any access to the engine, so that it fails on every device state and
with every digest. Of a ciphertext of a wrong length AND a password that is too long, that the length is what is reported
is the model's choice, notes/assumptions/12.md. -/
def Obligations.DriverRejectsBadInput : Prop :=
  ∀ (D : Digest) (pw : List Byte) (s : State),
    (∀ mode c, c.length % 8 ≠ 0 → Driver.decrypt D mode c pw s = .error .invalidCiphertextLength) ∧
    (2 ^ 32 - 1 < pw.length →
      (∀ m, Driver.encrypt D m pw s = .error .passwordTooLong) ∧
      (∀ mode c, c.length % 8 = 0 → Driver.decrypt D mode c pw s = .error .passwordTooLong))

/-- R129, for every digest: the round trip, between any two idle devices with no error recorded. With COUNT every message comes
back; with FAITHFUL the padded message does. -/
def Obligations.DecryptUndoesEncrypt : Prop :=
  ∀ (D : Digest) (m pw : List Byte) (s u : State), pw.length ≤ 2 ^ 32 - 1 → s.busy = false → s.errf = false →
    u.busy = false → u.errf = false →
    ∃ c t, Driver.encrypt D m pw s = .ok (c, t) ∧ c.length = (Driver.addPadding m).length ∧
      (∃ v, Driver.decrypt D .count c pw u = .ok (m, v)) ∧
      (∃ v, Driver.decrypt D .faithful c pw u = .ok (Driver.addPadding m, v))

/-! ### The parameter DIGEST -/

/-- R10, R88: what is stated above for every digest holds of the device, which is the machine with its own digest; and the
digest enters only through HASH and SETUP. -/
def Obligations.TheDeviceIsTheMachineWithItsDigest : Prop :=
  core = coreAt Config.digest ∧ (∀ s, step s = stepAt Config.digest s) ∧ (∀ i s, exec i s = execAt Config.digest i s) ∧
  ∀ (D : Digest) (s : State), execAt D .hash s = .next { s with key := D s.pwd } ∧
    ∀ i, i ≠ .hash → i ≠ .setup → execAt D i s = exec i s
end

