-- ==== Sys2Proof/Laws/Memory.lean ====
section
/-! SUPPORT. The laws of the RAMs: a read after a write or a fill, and that every memory operation keeps the canonical form. -/

namespace Sys2Proof.Machine.Memory

theorem read_nil (a : Nat) : read [] a = none := rfl

theorem read_cons (k : Nat) (b : Byte) (m : Memory) (a : Nat) :
    read ((k, b) :: m) a = if a = k then some b else read m a := by
  unfold read
  by_cases h : a = k
  · simp [List.lookup, h]
  · have : (a == k) = false := by simp [h]
    simp [List.lookup, h, this]

theorem read_append (m n : Memory) (a : Nat) : read (m ++ n) a = (read m a).or (read n a) := by
  induction m with
  | nil => simp [read_nil]
  | cons c m ih =>
    obtain ⟨k, b⟩ := c
    by_cases h : a = k <;> simp [read_cons, h, ih]

theorem read_filter_of_keep (p : Nat → Bool) (m : Memory) (a : Nat) (h : p a = true) :
    read (m.filter fun c => p c.1) a = read m a := by
  induction m with
  | nil => rfl
  | cons c m ih =>
    obtain ⟨k, b⟩ := c
    by_cases hk : p k = true
    · simp [hk, read_cons, ih]
    · have hne : a ≠ k := fun e => hk (e ▸ h)
      simp [hk, read_cons, ih, hne]

theorem read_filter_of_drop (p : Nat → Bool) (m : Memory) (a : Nat) (h : p a = false) :
    read (m.filter fun c => p c.1) a = none := by
  induction m with
  | nil => rfl
  | cons c m ih =>
    obtain ⟨k, b⟩ := c
    by_cases hk : p k = true
    · have hne : a ≠ k := fun e => by simp [e, hk] at h
      simp [hk, read_cons, ih, hne]
    · simp [hk, ih]

theorem read_write_same (m : Memory) (a : Nat) (b : Byte) : (m.write a b).read a = some b := by
  induction m with
  | nil => simp [write, read_cons]
  | cons c m ih =>
    obtain ⟨k, x⟩ := c
    unfold write
    split
    · simp [read_cons]
    · split
      · simp [read_cons]
      · simp [read_cons, *]

theorem read_write_other (m : Memory) (a a' : Nat) (b : Byte) (h : a' ≠ a) :
    (m.write a b).read a' = m.read a' := by
  induction m with
  | nil => simp [write, read_cons, read_nil, h]
  | cons c m ih =>
    obtain ⟨k, x⟩ := c
    unfold write
    split
    · simp [read_cons, h]
    · split
      · next _ e => subst e; simp [read_cons, h]
      · simp [read_cons, ih]

theorem read_write (m : Memory) (a a' : Nat) (b : Byte) :
    (m.write a b).read a' = if a' = a then some b else m.read a' := by
  split
  · next e => subst e; exact read_write_same ..
  · next h => exact read_write_other _ _ _ _ h

theorem read_writeWord (m : Memory) (a a' : Nat) (w : Word) :
    (m.writeWord a w).read a'
      = if a ≤ a' ∧ a' < a + 4 then some (byteOf (a' - a) w) else m.read a' := by
  simp only [writeWord, read_write]
  by_cases h : a ≤ a' ∧ a' < a + 4
  · obtain ⟨k, rfl⟩ : ∃ k, a' = a + k := ⟨a' - a, by omega⟩
    have hk : k = 0 ∨ k = 1 ∨ k = 2 ∨ k = 3 := by omega
    rcases hk with rfl | rfl | rfl | rfl <;> simp
  · have h0 : a' ≠ a + 3 := by omega
    have h1 : a' ≠ a + 2 := by omega
    have h2 : a' ≠ a + 1 := by omega
    have h3 : a' ≠ a := by omega
    simp [h, h0, h1, h2, h3]

theorem read_map_range (base n : Nat) (f : Nat → Byte) (a : Nat) :
    read ((List.range n).map fun k => (base + k, f k)) a
      = if base ≤ a ∧ a < base + n then some (f (a - base)) else none := by
  induction n with
  | zero => simp [read_nil]
  | succ n ih =>
    rw [List.range_succ, List.map_append, read_append, ih]
    by_cases h : base ≤ a ∧ a < base + n
    · have : base ≤ a ∧ a < base + (n + 1) := by omega
      simp [h, this]
    · by_cases e : a = base + n
      · subst e; simp [read_cons]
      · have : ¬ (base ≤ a ∧ a < base + (n + 1)) := by omega
        simp [h, this, read_cons, read_nil, e]

theorem read_fill (m : Memory) (base n : Nat) (f : Nat → Byte) (a : Nat) :
    (m.fill base n f).read a
      = if base ≤ a ∧ a < base + n then some (f (a - base)) else m.read a := by
  unfold fill
  rw [read_append, read_append, read_map_range]
  by_cases hlo : a < base
  · have h1 : ¬ (base ≤ a ∧ a < base + n) := by omega
    have h2 : ¬ (base + n ≤ a) := by omega
    rw [read_filter_of_keep (fun k => decide (k < base)) m a (by simpa using hlo),
      read_filter_of_drop (fun k => decide (base + n ≤ k)) m a (by simpa using h2)]
    simp [h1]
  · rw [read_filter_of_drop (fun k => decide (k < base)) m a (by simpa using hlo)]
    by_cases hhi : base + n ≤ a
    · have h1 : ¬ (base ≤ a ∧ a < base + n) := by omega
      rw [read_filter_of_keep (fun k => decide (base + n ≤ k)) m a (by simpa using hhi)]
      simp [h1]
    · have h1 : base ≤ a ∧ a < base + n := by omega
      simp [h1]

theorem mem_keys_write (m : Memory) (a x : Nat) (b : Byte) :
    x ∈ (m.write a b).map Prod.fst ↔ x = a ∨ x ∈ m.map Prod.fst := by
  induction m with
  | nil => simp [write]
  | cons c m ih =>
    obtain ⟨k, y⟩ := c
    unfold write
    split
    · simp
    · split
      · next _ e => subst e; simp
      · simp only [List.map_cons, List.mem_cons, ih]
        constructor
        · rintro (h | h | h) <;> simp [h]
        · rintro (h | h | h) <;> simp [h]

theorem write_wf (m : Memory) (a : Nat) (b : Byte) (hm : m.wf) (ha : isRamOffset a = true) :
    (m.write a b).wf := by
  refine ⟨?_, fun x hx => ?_⟩
  · have h := hm.1
    clear hm ha
    induction m with
    | nil => simp [write]
    | cons c m ih =>
      obtain ⟨k, y⟩ := c
      simp only [List.map_cons, List.pairwise_cons] at h
      unfold write
      split
      · next hlt =>
        simp only [List.map_cons, List.pairwise_cons, List.mem_cons]
        refine ⟨?_, h.1, h.2⟩
        rintro z (rfl | hz)
        · exact hlt
        · exact Nat.lt_trans hlt (h.1 z hz)
      · split
        · next _ e =>
          subst e
          simpa only [List.map_cons, List.pairwise_cons] using h
        · next h1 h2 =>
          simp only [List.map_cons, List.pairwise_cons]
          refine ⟨fun z hz => ?_, ih h.2⟩
          rcases (mem_keys_write ..).1 hz with rfl | hz
          · omega
          · exact h.1 z hz
  · rcases (mem_keys_write ..).1 hx with rfl | hx
    · exact ha
    · exact hm.2 x hx

theorem writeWord_wf (m : Memory) (a : Nat) (w : Word) (hm : m.wf)
    (ha : ∀ k, k < 4 → isRamOffset (a + k) = true) : (m.writeWord a w).wf :=
  write_wf _ _ _ (write_wf _ _ _ (write_wf _ _ _ (write_wf _ _ _ hm (ha 0 (by omega))) (ha 1 (by omega)))
    (ha 2 (by omega))) (ha 3 (by omega))

theorem mem_keys_fill (m : Memory) (base n : Nat) (f : Nat → Byte) (x : Nat)
    (hx : x ∈ (m.fill base n f).map Prod.fst) : (base ≤ x ∧ x < base + n) ∨ x ∈ m.map Prod.fst := by
  simp only [fill, List.map_append, List.mem_append, List.map_map, List.mem_map, List.mem_filter,
    List.mem_range, Function.comp] at hx
  rcases hx with (⟨c, ⟨hc, -⟩, rfl⟩ | ⟨k, hk, rfl⟩) | ⟨c, ⟨hc, -⟩, rfl⟩
  · exact .inr (List.mem_map_of_mem hc)
  · exact .inl ⟨Nat.le_add_right .., Nat.add_lt_add_left hk _⟩
  · exact .inr (List.mem_map_of_mem hc)

theorem rising_filter (p : Host.Cell → Bool) (m : Memory) (h : (m.map Prod.fst).Pairwise (· < ·)) :
    ((m.filter p).map Prod.fst).Pairwise (· < ·) :=
  h.sublist (List.Sublist.map _ List.filter_sublist)

theorem rising_range (base n : Nat) (f : Nat → Byte) :
    (((List.range n).map fun k => (base + k, f k)).map Prod.fst).Pairwise (· < ·) := by
  rw [List.map_map, List.pairwise_map]
  exact List.pairwise_lt_range.imp (fun h => by simpa using h)

theorem fill_wf (m : Memory) (base n : Nat) (f : Nat → Byte) (hm : m.wf)
    (hr : ∀ k, k < n → isRamOffset (base + k) = true) : (m.fill base n f).wf := by
  refine ⟨?_, fun x hx => ?_⟩
  · unfold fill
    simp only [List.map_append, List.pairwise_append]
    refine ⟨⟨rising_filter _ _ hm.1, rising_range .., ?_⟩, rising_filter _ _ hm.1, ?_⟩
    · intro x hx y hy
      simp only [List.mem_map, List.mem_filter, List.map_map, Function.comp, List.mem_range] at hx hy
      obtain ⟨c, ⟨-, hc⟩, rfl⟩ := hx
      obtain ⟨k, -, rfl⟩ := hy
      have := of_decide_eq_true hc
      omega
    · intro x hx y hy
      simp only [List.mem_append, List.mem_map, List.mem_filter, List.map_map, Function.comp, List.mem_range] at hx hy
      obtain ⟨d, ⟨-, hd⟩, rfl⟩ := hy
      have hd := of_decide_eq_true hd
      rcases hx with ⟨c, ⟨-, hc⟩, rfl⟩ | ⟨k, hk, rfl⟩
      · have := of_decide_eq_true hc; omega
      · omega
  · rcases mem_keys_fill _ _ _ _ _ hx with ⟨h1, h2⟩ | h
    · have := hr (x - base) (by omega)
      rwa [Nat.add_sub_cancel' h1] at this
    · exact hm.2 x h

/-- The memory of the state after reset has the canonical form. -/
theorem reset_wf : State.reset.mem.wf := by decide

end Sys2Proof.Machine.Memory
end

