-- ==== Sys2Proof/Laws/State.lean ====
section
/-! SUPPORT. One lemma per field per update of the state, so that no later proof unfolds a record update. -/

namespace Sys2Proof.Machine.State

variable (s : State)


/-! `writeStatus` (R27) -/

@[simp] theorem writeStatus_busy (v : Word) : (s.writeStatus v).busy = s.busy := rfl
@[simp] theorem writeStatus_done (v : Word) : (s.writeStatus v).done = if v.getLsbD 1 then false else s.done := rfl
@[simp] theorem writeStatus_errf (v : Word) : (s.writeStatus v).errf = if v.getLsbD 2 then false else s.errf := rfl
@[simp] theorem writeStatus_errcode (v : Word) : (s.writeStatus v).errcode = if v.getLsbD 2 then 0 else s.errcode := rfl
@[simp] theorem writeStatus_doneIe (v : Word) : (s.writeStatus v).doneIe = s.doneIe := rfl
@[simp] theorem writeStatus_errIe (v : Word) : (s.writeStatus v).errIe = s.errIe := rfl
@[simp] theorem writeStatus_pwd (v : Word) : (s.writeStatus v).pwd = s.pwd := rfl
@[simp] theorem writeStatus_key (v : Word) : (s.writeStatus v).key = s.key := rfl
@[simp] theorem writeStatus_data (v : Word) : (s.writeStatus v).data = s.data := rfl
@[simp] theorem writeStatus_mem (v : Word) : (s.writeStatus v).mem = s.mem := rfl
@[simp] theorem writeStatus_cur (v : Word) : (s.writeStatus v).cur = s.cur := rfl
@[simp] theorem writeStatus_fault (v : Word) : (s.writeStatus v).fault = s.fault := rfl
@[simp] theorem writeStatus_draws (v : Word) : (s.writeStatus v).draws = s.draws := rfl
@[simp] theorem writeStatus_reply (v : Word) : (s.writeStatus v).reply = s.reply := rfl
@[simp] theorem writeStatus_inputs (v : Word) : (s.writeStatus v).inputs = s.inputs := rfl

/-! `writeInten` (R31) -/

@[simp] theorem writeInten_busy (v : Word) : (s.writeInten v).busy = s.busy := rfl
@[simp] theorem writeInten_done (v : Word) : (s.writeInten v).done = s.done := rfl
@[simp] theorem writeInten_errf (v : Word) : (s.writeInten v).errf = s.errf := rfl
@[simp] theorem writeInten_errcode (v : Word) : (s.writeInten v).errcode = s.errcode := rfl
@[simp] theorem writeInten_doneIe (v : Word) : (s.writeInten v).doneIe = v.getLsbD 0 := rfl
@[simp] theorem writeInten_errIe (v : Word) : (s.writeInten v).errIe = v.getLsbD 1 := rfl
@[simp] theorem writeInten_pwd (v : Word) : (s.writeInten v).pwd = s.pwd := rfl
@[simp] theorem writeInten_key (v : Word) : (s.writeInten v).key = s.key := rfl
@[simp] theorem writeInten_data (v : Word) : (s.writeInten v).data = s.data := rfl
@[simp] theorem writeInten_mem (v : Word) : (s.writeInten v).mem = s.mem := rfl
@[simp] theorem writeInten_cur (v : Word) : (s.writeInten v).cur = s.cur := rfl
@[simp] theorem writeInten_fault (v : Word) : (s.writeInten v).fault = s.fault := rfl
@[simp] theorem writeInten_draws (v : Word) : (s.writeInten v).draws = s.draws := rfl
@[simp] theorem writeInten_reply (v : Word) : (s.writeInten v).reply = s.reply := rfl
@[simp] theorem writeInten_inputs (v : Word) : (s.writeInten v).inputs = s.inputs := rfl

/-! `accept` (R78) -/

@[simp] theorem accept_busy (i : Instr) : (s.accept i).busy = true := rfl
@[simp] theorem accept_done (i : Instr) : (s.accept i).done = false := rfl
@[simp] theorem accept_errf (i : Instr) : (s.accept i).errf = s.errf := rfl
@[simp] theorem accept_errcode (i : Instr) : (s.accept i).errcode = s.errcode := rfl
@[simp] theorem accept_doneIe (i : Instr) : (s.accept i).doneIe = s.doneIe := rfl
@[simp] theorem accept_errIe (i : Instr) : (s.accept i).errIe = s.errIe := rfl
@[simp] theorem accept_pwd (i : Instr) : (s.accept i).pwd = s.pwd := rfl
@[simp] theorem accept_key (i : Instr) : (s.accept i).key = s.key := rfl
@[simp] theorem accept_data (i : Instr) : (s.accept i).data = s.data := rfl
@[simp] theorem accept_mem (i : Instr) : (s.accept i).mem = s.mem := rfl
@[simp] theorem accept_cur (i : Instr) : (s.accept i).cur = some i := rfl
@[simp] theorem accept_fault (i : Instr) : (s.accept i).fault = s.fault := rfl
@[simp] theorem accept_draws (i : Instr) : (s.accept i).draws = s.draws := rfl
@[simp] theorem accept_reply (i : Instr) : (s.accept i).reply = s.reply := rfl
@[simp] theorem accept_inputs (i : Instr) : (s.accept i).inputs = s.inputs := rfl

/-! `complete` (R79) -/

@[simp] theorem complete_busy : (s.complete).busy = false := rfl
@[simp] theorem complete_done : (s.complete).done = true := rfl
@[simp] theorem complete_errf : (s.complete).errf = s.errf := rfl
@[simp] theorem complete_errcode : (s.complete).errcode = s.errcode := rfl
@[simp] theorem complete_doneIe : (s.complete).doneIe = s.doneIe := rfl
@[simp] theorem complete_errIe : (s.complete).errIe = s.errIe := rfl
@[simp] theorem complete_pwd : (s.complete).pwd = s.pwd := rfl
@[simp] theorem complete_key : (s.complete).key = s.key := rfl
@[simp] theorem complete_data : (s.complete).data = s.data := rfl
@[simp] theorem complete_mem : (s.complete).mem = s.mem := rfl
@[simp] theorem complete_cur : (s.complete).cur = none := rfl
@[simp] theorem complete_fault : (s.complete).fault = s.fault := rfl
@[simp] theorem complete_draws : (s.complete).draws = s.draws := rfl
@[simp] theorem complete_reply : (s.complete).reply = s.reply := rfl
@[simp] theorem complete_inputs : (s.complete).inputs = s.inputs := rfl

/-! `resetEvent` (R150) -/

@[simp] theorem resetEvent_busy : (s.resetEvent).busy = State.reset.busy := rfl
@[simp] theorem resetEvent_done : (s.resetEvent).done = State.reset.done := rfl
@[simp] theorem resetEvent_errf : (s.resetEvent).errf = State.reset.errf := rfl
@[simp] theorem resetEvent_errcode : (s.resetEvent).errcode = State.reset.errcode := rfl
@[simp] theorem resetEvent_doneIe : (s.resetEvent).doneIe = State.reset.doneIe := rfl
@[simp] theorem resetEvent_errIe : (s.resetEvent).errIe = State.reset.errIe := rfl
@[simp] theorem resetEvent_pwd : (s.resetEvent).pwd = State.reset.pwd := rfl
@[simp] theorem resetEvent_key : (s.resetEvent).key = State.reset.key := rfl
@[simp] theorem resetEvent_data : (s.resetEvent).data = State.reset.data := rfl
@[simp] theorem resetEvent_mem : (s.resetEvent).mem = State.reset.mem := rfl
@[simp] theorem resetEvent_cur : (s.resetEvent).cur = State.reset.cur := rfl
@[simp] theorem resetEvent_fault : (s.resetEvent).fault = s.fault := rfl
@[simp] theorem resetEvent_draws : (s.resetEvent).draws = s.draws := rfl
@[simp] theorem resetEvent_reply : (s.resetEvent).reply = s.reply := rfl
@[simp] theorem resetEvent_inputs : (s.resetEvent).inputs = s.inputs := rfl

/-! `raise` (R133) -/

@[simp] theorem raise_busy (c : ErrorCode) : (s.raise c).busy = s.busy := by unfold raise; split <;> rfl
@[simp] theorem raise_done (c : ErrorCode) : (s.raise c).done = s.done := by unfold raise; split <;> rfl
@[simp] theorem raise_errf (c : ErrorCode) : (s.raise c).errf = true := by
  unfold raise; split <;> simp_all
@[simp] theorem raise_errcode (c : ErrorCode) : (s.raise c).errcode = if s.errf then s.errcode else c.code := by
  unfold raise; split <;> simp_all
@[simp] theorem raise_doneIe (c : ErrorCode) : (s.raise c).doneIe = s.doneIe := by unfold raise; split <;> rfl
@[simp] theorem raise_errIe (c : ErrorCode) : (s.raise c).errIe = s.errIe := by unfold raise; split <;> rfl
@[simp] theorem raise_pwd (c : ErrorCode) : (s.raise c).pwd = s.pwd := by unfold raise; split <;> rfl
@[simp] theorem raise_key (c : ErrorCode) : (s.raise c).key = s.key := by unfold raise; split <;> rfl
@[simp] theorem raise_data (c : ErrorCode) : (s.raise c).data = s.data := by unfold raise; split <;> rfl
@[simp] theorem raise_mem (c : ErrorCode) : (s.raise c).mem = s.mem := by unfold raise; split <;> rfl
@[simp] theorem raise_cur (c : ErrorCode) : (s.raise c).cur = s.cur := by unfold raise; split <;> rfl
@[simp] theorem raise_fault (c : ErrorCode) : (s.raise c).fault = s.fault := by unfold raise; split <;> rfl
@[simp] theorem raise_draws (c : ErrorCode) : (s.raise c).draws = s.draws := by unfold raise; split <;> rfl
@[simp] theorem raise_reply (c : ErrorCode) : (s.raise c).reply = s.reply := by unfold raise; split <;> rfl
@[simp] theorem raise_inputs (c : ErrorCode) : (s.raise c).inputs = s.inputs := by unfold raise; split <;> rfl

/-! `record` (R40) -/

@[simp] theorem record_busy (u : Bool) : (s.record u).busy = s.busy := by unfold record; split <;> rfl
@[simp] theorem record_done (u : Bool) : (s.record u).done = s.done := by unfold record; split <;> rfl
@[simp] theorem record_errf (u : Bool) : (s.record u).errf = s.errf := by unfold record; split <;> rfl
@[simp] theorem record_errcode (u : Bool) : (s.record u).errcode = s.errcode := by unfold record; split <;> rfl
@[simp] theorem record_doneIe (u : Bool) : (s.record u).doneIe = s.doneIe := by unfold record; split <;> rfl
@[simp] theorem record_errIe (u : Bool) : (s.record u).errIe = s.errIe := by unfold record; split <;> rfl
@[simp] theorem record_pwd (u : Bool) : (s.record u).pwd = s.pwd := by unfold record; split <;> rfl
@[simp] theorem record_key (u : Bool) : (s.record u).key = s.key := by unfold record; split <;> rfl
@[simp] theorem record_data (u : Bool) : (s.record u).data = s.data := by unfold record; split <;> rfl
@[simp] theorem record_mem (u : Bool) : (s.record u).mem = s.mem := by unfold record; split <;> rfl
@[simp] theorem record_cur (u : Bool) : (s.record u).cur = s.cur := by unfold record; split <;> rfl
@[simp] theorem record_fault (u : Bool) : (s.record u).fault = if u then some .unwrittenRam else s.fault := by
  unfold record; split <;> simp_all
@[simp] theorem record_draws (u : Bool) : (s.record u).draws = if u then s.draws + 1 else s.draws := by
  unfold record; split <;> simp_all
@[simp] theorem record_reply (u : Bool) : (s.record u).reply = s.reply := by unfold record; split <;> rfl
@[simp] theorem record_inputs (u : Bool) : (s.record u).inputs = s.inputs := by unfold record; split <;> rfl

/-! `resetEvent` on an event list, and `raise` when an error is already recorded -/

@[simp] theorem record_false : s.record false = s := rfl
theorem raise_of_errf (c : ErrorCode) (h : s.errf = true) : s.raise c = s := by simp [raise, h]
theorem raise_of_not_errf (c : ErrorCode) (h : s.errf = false) :
    s.raise c = { s with errf := true, errcode := c.code } := by simp [raise, h]

/-! `absorb` (R86) -/

@[simp] theorem absorb_busy (b : Byte) : (s.absorb b).busy = s.busy := by
  unfold absorb; split <;> simp
@[simp] theorem absorb_done (b : Byte) : (s.absorb b).done = s.done := by
  unfold absorb; split <;> simp
@[simp] theorem absorb_doneIe (b : Byte) : (s.absorb b).doneIe = s.doneIe := by
  unfold absorb; split <;> simp
@[simp] theorem absorb_errIe (b : Byte) : (s.absorb b).errIe = s.errIe := by
  unfold absorb; split <;> simp
@[simp] theorem absorb_key (b : Byte) : (s.absorb b).key = s.key := by
  unfold absorb; split <;> simp
@[simp] theorem absorb_data (b : Byte) : (s.absorb b).data = s.data := by
  unfold absorb; split <;> simp
@[simp] theorem absorb_mem (b : Byte) : (s.absorb b).mem = s.mem := by
  unfold absorb; split <;> simp
@[simp] theorem absorb_cur (b : Byte) : (s.absorb b).cur = s.cur := by
  unfold absorb; split <;> simp
@[simp] theorem absorb_fault (b : Byte) : (s.absorb b).fault = s.fault := by
  unfold absorb; split <;> simp
@[simp] theorem absorb_draws (b : Byte) : (s.absorb b).draws = s.draws := by
  unfold absorb; split <;> simp
@[simp] theorem absorb_reply (b : Byte) : (s.absorb b).reply = s.reply := by
  unfold absorb; split <;> simp
@[simp] theorem absorb_inputs (b : Byte) : (s.absorb b).inputs = s.inputs := by
  unfold absorb; split <;> simp
theorem absorb_of_full (b : Byte) (h : s.pwd.length = Config.pwdMax) : s.absorb b = s.raise .pwdOverflow := by
  simp [absorb, h]
theorem absorb_of_room (b : Byte) (h : s.pwd.length ≠ Config.pwdMax) :
    s.absorb b = { s with pwd := s.pwd ++ [b] } := by simp [absorb, h]

/-! `ifIdle` (R55) -/

theorem ifIdle_of_busy (f : State → State) (h : s.busy = true) : s.ifIdle f = s.raise .busy := by simp [ifIdle, h]
theorem ifIdle_of_idle (f : State → State) (h : s.busy = false) : s.ifIdle f = f s := by simp [ifIdle, h]

end Sys2Proof.Machine.State
end

