-- ==== Sys2Proof/Laws/Cipher.lean ====
section
/-! SUPPORT. The cipher's functions: over known bytes they are the plain functions, an unknown lane of a half-block stays
unknown, and the loops of KSCHED and EXPAND one pass at a time. -/

namespace Sys2Proof.Machine

variable {α β : Type}

@[simp] theorem Half.map_b0 (f : α → β) (h : Half α) : (h.map f).b0 = f h.b0 := rfl
@[simp] theorem Half.map_b1 (f : α → β) (h : Half α) : (h.map f).b1 = f h.b1 := rfl
@[simp] theorem Half.map_b2 (f : α → β) (h : Half α) : (h.map f).b2 = f h.b2 := rfl
@[simp] theorem Half.map_b3 (f : α → β) (h : Half α) : (h.map f).b3 = f h.b3 := rfl
@[simp] theorem Half.zip_b0 (f : α → α → α) (x y : Half α) : (x.zip f y).b0 = f x.b0 y.b0 := rfl
@[simp] theorem Half.zip_b1 (f : α → α → α) (x y : Half α) : (x.zip f y).b1 = f x.b1 y.b1 := rfl
@[simp] theorem Half.zip_b2 (f : α → α → α) (x y : Half α) : (x.zip f y).b2 = f x.b2 y.b2 := rfl
@[simp] theorem Half.zip_b3 (f : α → α → α) (x y : Half α) : (x.zip f y).b3 = f x.b3 y.b3 := rfl

@[simp] theorem liftByte_some (f : Byte → Byte → Byte) (x y : Byte) : liftByte f (some x) (some y) = some (f x y) := rfl
@[simp] theorem liftByte_none_left (f : Byte → Byte → Byte) (y : MByte) : liftByte f none y = none := rfl
@[simp] theorem liftByte_none_right (f : Byte → Byte → Byte) (x : MByte) : liftByte f x none = none := by
  cases x <;> rfl

@[simp] theorem liftByte_isNone (f : Byte → Byte → Byte) (x y : MByte) :
    (liftByte f x y).isNone = (x.isNone || y.isNone) := by
  cases x <;> cases y <;> rfl

@[simp] theorem Half.unknown_map_some (h : Half Byte) : (h.map some).unknown = false := rfl

theorem Half.zip_xor_map_some (x y : Half Byte) :
    (x.map some).zip Arith.mbyte.xor (y.map some) = (x.zip Arith.byte.xor y).map some := rfl

/-- A lane of a sum is unknown when it is unknown in one of the two half-blocks. -/
theorem Half.unknown_zip_xor (x y : Half MByte) :
    (x.zip Arith.mbyte.xor y).unknown = (x.unknown || y.unknown) := by
  simp only [Half.unknown, Half.zip, Arith.mbyte, liftByte_isNone]
  cases x.b0 <;> cases x.b1 <;> cases x.b2 <;> cases x.b3 <;>
    cases y.b0 <;> cases y.b1 <;> cases y.b2 <;> cases y.b3 <;> rfl

/-- A half-block with no unknown lane is one of plain bytes. -/
theorem Half.eq_map_some_of_known (h : Half MByte) (hk : h.unknown = false) : ∃ g : Half Byte, h = g.map some := by
  obtain ⟨x0, x1, x2, x3⟩ := h
  cases x0 <;> cases x1 <;> cases x2 <;> cases x3 <;> simp_all [Half.unknown, Half.map]
  exact ⟨⟨_, _, _, _⟩, rfl, rfl, rfl, rfl⟩

/-- Where RAM holds the S-box `S` at every index F reads, F of known bytes is the plain F (R102). -/
theorem F_map_some (h : Half Byte) (T : MByte → MByte) (S : Byte → Byte) (hT : ∀ b, T (some b) = some (S b)) :
    F .mbyte (h.map some) T = (F .byte h S).map some := by
  simp [F, Arith.mbyte, Half.map, hT]

@[simp] theorem State.lane_some (s : State) (k : Nat) (b : Byte) : s.lane k (some b) = b := rfl

@[simp] theorem State.laneHalf_map_some (s : State) (k : Nat) (h : Half Byte) : s.laneHalf k (h.map some) = h := rfl

@[simp] theorem State.roundSbox_some (s : State) (r : Nat) (b : Byte) :
    s.roundSbox r (some b) = s.rsbox r b.toNat := rfl

@[simp] theorem State.roundSbox_none (s : State) (r : Nat) : s.roundSbox r none = none := rfl

/-- A result with no unknown byte is stored as it is, and nothing is recorded. -/
theorem State.storeBlock_known (s : State) (b : Block Byte) :
    s.storeBlock ⟨b.left.map some, b.right.map some⟩ = { s with data := b } := rfl

/-- One more round of the forward network. -/
theorem encRounds_succ (A : Arith α) (S : Nat → α → α) (b : Block α) (n : Nat) :
    (List.range (n + 1)).foldl (encRound A S) b = encRound A S ((List.range n).foldl (encRound A S) b) n := by
  simp [List.range_succ]

/-- The inverse network from round `n` down starts with that round. -/
theorem decRounds_succ (A : Arith α) (S : Nat → α → α) (b : Block α) (n : Nat) :
    (List.range (n + 1)).reverse.foldl (decRound A S) b
      = (List.range n).reverse.foldl (decRound A S) (decRound A S b n) := by
  simp [List.range_succ]

/-- One more swap of the permutation unit. -/
theorem swaps_succ (key : Vector Byte 32) (t : Nat → Byte) (n : Nat) :
    (List.range (n + 1)).foldl (swapStep key) t = swapStep key ((List.range n).foldl (swapStep key) t) n := by
  simp [List.range_succ]

/-- One more pass of the shuffle. -/
theorem shuffle_succ (src : Nat → MByte) (n : Nat) : shuffle src (n + 1) = shuffleStep src (shuffle src n) n := by
  simp [shuffle, List.range_succ]

theorem shuffle_zero (src : Nat → MByte) : shuffle src 0 = ⟨[], 0, 1⟩ := rfl

/-- A pass writes one byte of the destination buffer and leaves the others. -/
theorem shuffleStep_byte (src : Nat → MByte) (x : Shuffle) (s k : Nat) :
    (shuffleStep src x s).byte k = if k = x.d then src s else x.byte k := by
  by_cases h : k = x.d
  · simp [Shuffle.byte, shuffleStep, h]
  · have : (k == x.d) = false := by simp [h]
    simp [Shuffle.byte, shuffleStep, List.lookup, h, this]

/-- What KSCHED leaves in RAM: the single S-box in the SBOX window, every other byte as before. -/
theorem scheduleSbox_read (s : State) (a : Nat) :
    (scheduleSbox s).mem.read a
      = if 0x1000 ≤ a ∧ a < 0x1100 then some (singleSbox s.key (a - 0x1000)) else s.mem.read a :=
  Memory.read_fill ..

/-- What EXPAND leaves in RAM: the shuffled buffer in the RSBOX window, every other byte as before. -/
theorem expandSbox_read (s : State) (a : Nat) :
    (expandSbox s).mem.read a
      = if 0x2000 ≤ a ∧ a < 0x3000
        then some (s.lane (a - 0x2000) ((shuffle (flatCopies s) Config.flatBytes).byte (a - 0x2000)))
        else s.mem.read a :=
  Memory.read_fill ..

/-- Membership in the two windows, as inequalities. -/
theorem isRamOffset_iff (a : Nat) :
    isRamOffset a = true ↔ (0x1000 ≤ a ∧ a < 0x1100) ∨ (0x2000 ≤ a ∧ a < 0x3000) := by
  simp only [isRamOffset, Bool.or_eq_true, Bool.and_eq_true, decide_eq_true_eq]
  rfl

theorem scheduleSbox_wf (s : State) (h : s.mem.wf) : (scheduleSbox s).mem.wf :=
  Memory.fill_wf _ _ _ _ h fun k (hk : k < 0x100) => (isRamOffset_iff _).2 <| .inl <| by
    rw [Config.sboxBase]; omega

theorem expandSbox_wf (s : State) (h : s.mem.wf) : (expandSbox s).mem.wf :=
  Memory.fill_wf _ _ _ _ h fun k (hk : k < 0x1000) => (isRamOffset_iff _).2 <| .inr <| by
    rw [Config.rsboxBase]; omega

end Sys2Proof.Machine
end

