-- ==== Sys2Proof/Laws/Decode.lean ====
section
/-! SUPPORT. The fields of a word and the word of the fields are inverse (spec/30_encoding.md R68). -/

namespace Sys2Proof.CmdFields

theorem toWord_ofWord (v : Word) : (CmdFields.ofWord v).toWord = v := by
  apply BitVec.eq_of_getLsbD_eq
  intro i hi
  simp only [toWord, ofWord, BitVec.getLsbD_append, BitVec.getLsbD_extractLsb']
  by_cases h4 : i < 4
  · simp [h4]
  · by_cases h8 : i < 8
    · simp [h4, show i - 4 < 4 by omega, show 4 + (i - 4) = i by omega]
    · simp [h4, show ¬ i - 4 < 4 by omega, show i - 4 - 4 < 24 by omega, show 8 + (i - 4 - 4) = i by omega]

theorem ofWord_toWord (f : CmdFields) : CmdFields.ofWord f.toWord = f := by
  obtain ⟨op, round, rsvd⟩ := f
  simp only [ofWord, toWord, CmdFields.mk.injEq]
  refine ⟨?_, ?_, ?_⟩ <;>
  · apply BitVec.eq_of_getLsbD_eq
    intro i hi
    simp only [BitVec.getLsbD_extractLsb', BitVec.getLsbD_append]
    first
      | (simp [hi]; done)
      | simp [hi, show ¬ 8 + i < 4 by omega, show ¬ 8 + i - 4 < 4 by omega, show 8 + i - 4 - 4 = i by omega]

/-- The three checks of WellFormed are the decoder's (R72, R73): a word decodes exactly when its fields pass them. -/
theorem decodeFields_ok_iff_wellFormed (f : CmdFields) : (decodeFields f).toOption.isSome = f.wellFormed := by
  obtain ⟨op, round, rsvd⟩ := f
  by_cases hr : rsvd = 0
  · subst hr
    revert op round
    decide +kernel
  · rw [decodeFields, if_pos hr, wellFormed, rsvdOk, decide_eq_false hr]
    rfl

end Sys2Proof.CmdFields
end

