-- ==== Sys2Proof/Laws/PerInstr.lean ====
section
/-! SUPPORT. A law of every command as syntax: its fields pass the three checks of WellFormed, and they are the fields of its
command word (spec/30_encoding.md R68, R71). -/

namespace Sys2Proof.Laws.FieldsOfTheWord

/-- The fields of a command are well formed and are those of its word. -/
def Statement (i : Instr) : Prop := i.fields.wellFormed = true ∧ CmdFields.ofWord (encode i) = i.fields

theorem nop : Statement .nop := ⟨rfl, CmdFields.ofWord_toWord _⟩
theorem pwdclr : Statement .pwdclr := ⟨rfl, CmdFields.ofWord_toWord _⟩
theorem hash : Statement .hash := ⟨rfl, CmdFields.ofWord_toWord _⟩
theorem ksched : Statement .ksched := ⟨rfl, CmdFields.ofWord_toWord _⟩
theorem expand : Statement .expand := ⟨rfl, CmdFields.ofWord_toWord _⟩
theorem setup : Statement .setup := ⟨rfl, CmdFields.ofWord_toWord _⟩
theorem enc : Statement .enc := ⟨rfl, CmdFields.ofWord_toWord _⟩
theorem dec : Statement .dec := ⟨rfl, CmdFields.ofWord_toWord _⟩
theorem roundf (round : BitVec 4) : Statement (.roundf round) := ⟨rfl, CmdFields.ofWord_toWord _⟩

end Sys2Proof.Laws.FieldsOfTheWord
end

