-- ==== Sys2Proof/Laws/Step.lean ====
section
/-! SUPPORT. What each function of the machine can do, said once: the commands, the port, the engine's step and the step. -/

namespace Sys2Proof.Machine

/-- The device's commands are those of the machine with its digest. -/
theorem exec_eq_execAt (i : Instr) (s : State) : exec i s = execAt Config.digest i s := by cases i <;> rfl

theorem step_eq_stepAt (s : State) : step s = stepAt Config.digest s := rfl

/-- Only HASH and SETUP use the digest. -/
theorem execAt_eq_exec (D : Digest) {i : Instr} (hh : i ≠ .hash) (hs : i ≠ .setup) (s : State) : execAt D i s = exec i s := by
  cases i <;> first | contradiction | rfl

/-- What a command can do, for every digest: the state each answers. -/
theorem execAt_cases {D : Digest} {i : Instr} {s t : State} (h : execAt D i s = .next t) :
    (i = .nop ∧ t = s) ∨
    (i = .pwdclr ∧ t = { s with pwd := [] }) ∨
    (i = .hash ∧ t = hashKey D s) ∨
    (i = .ksched ∧ t = scheduleSbox s) ∨
    (i = .expand ∧ t = expandSbox s) ∨
    (i = .setup ∧ t = setupTables D s) ∨
    (i = .enc ∧ t = s.storeBlock (encNetwork .mbyte s.roundSbox s.operandBlock)) ∨
    (i = .dec ∧ t = s.storeBlock (decNetwork .mbyte s.roundSbox s.operandBlock)) ∨
    (∃ r, i = .roundf r ∧
      t = { s.record (F .mbyte (s.data.left.map some) (s.roundSbox r.toNat)).unknown with
            data := ⟨s.data.left, s.laneHalf 4 (F .mbyte (s.data.left.map some) (s.roundSbox r.toNat))⟩ }) := by
  cases i <;> cases h <;> simp

/-- What the engine's step can do. -/
theorem engineStep_cases {D : Digest} {s t : State} (h : engineStep D s = .next t) :
    (s.cur = none ∧ t = s) ∨ ∃ i u, s.cur = some i ∧ execAt D i s = .next u ∧ t = u.complete := by
  unfold engineStep at h
  split at h
  · next hc => cases h; exact .inl ⟨hc, rfl⟩
  · next i hc =>
    cases hx : execAt D i s with
    | next u => rw [hx] at h; cases h; exact .inr ⟨i, u, hc, hx, rfl⟩
    | fault f => rw [hx] at h; cases h
    | refused r => rw [hx] at h; cases h

/-- What a step can do: the engine's turn, a host transaction, or a reset. -/
theorem stepAt_cases {D : Digest} {s t : State} (h : stepAt D s = .next t) :
    (s.inputs = [] ∧ engineStep D s = .next t) ∨
    (∃ rest, s.inputs = .engine :: rest ∧ engineStep D { s with inputs := rest } = .next t) ∨
    (∃ x rest, s.inputs = .host x :: rest ∧ t = hostStep x { s with inputs := rest }) ∨
    (∃ rest, s.inputs = .reset :: rest ∧ t = State.resetEvent { s with inputs := rest }) := by
  unfold stepAt at h
  split at h
  · next e => exact .inl ⟨e, h⟩
  · next rest e => exact .inr (.inl ⟨rest, e, h⟩)
  · next x rest e => cases h; exact .inr (.inr (.inl ⟨x, rest, e, rfl⟩))
  · next rest e => cases h; exact .inr (.inr (.inr ⟨rest, e, rfl⟩))

/-- What a submission can do (R77). -/
theorem submit_cases (s : State) (v : Word) :
    (∃ i, decode v = .ok i ∧ s.submit v = s.accept i) ∨
    (∃ e, decode v = .error e ∧ s.submit v = s.raise .illegalCmd) := by
  unfold State.submit
  cases h : decode v with
  | ok i => exact .inl ⟨i, rfl, rfl⟩
  | error e => exact .inr ⟨e, rfl, rfl⟩

/-- A read changes only the model's own draws and recorded fault (R59). -/
theorem memRead_state (a : Offset) (s : State) :
    (memRead a s).2 = { s with fault := (memRead a s).2.fault, draws := (memRead a s).2.draws } := by
  have hw (x : Nat) : (s.readWindow x).2 = { s with fault := (s.readWindow x).2.fault, draws := (s.readWindow x).2.draws } := by
    simp only [State.readWindow, State.record]
    split <;> rfl
  unfold memRead
  split
  · rfl
  · next r _ =>
    cases r <;> simp only [readReg, State.readIfIdle] <;> first | rfl | (split <;> first | rfl | exact hw _)

end Sys2Proof.Machine
end

