-- ==== Sys2Proof/Laws/Words.lean ====
section
/-! SUPPORT. Bytes in words: packing and taking apart are inverse (spec/00_scope.md R13), and the words of KEY. -/

namespace Sys2Proof.Machine

theorem byteOf_getLsbD (k : Nat) (w : Word) (i : Nat) :
    (byteOf k w).getLsbD i = (decide (i < 8) && w.getLsbD (8 * k + i)) := by
  simp [byteOf, BitVec.getLsbD_extractLsb']

theorem pack32_getLsbD (b0 b1 b2 b3 : Byte) (i : Nat) :
    (pack32 b0 b1 b2 b3).getLsbD i
      = (decide (i < 32) && if i < 8 then b0.getLsbD i else if i < 16 then b1.getLsbD (i - 8)
          else if i < 24 then b2.getLsbD (i - 16) else b3.getLsbD (i - 24)) := by
  have hb (b : Byte) (j : Nat) (h : 8 ≤ j) : b.getLsbD j = false := BitVec.getLsbD_of_ge _ _ h
  by_cases h32 : i < 32
  · by_cases h8 : i < 8
    · have : i < 16 := by omega
      have : i < 24 := by omega
      simp [pack32, *]
    · by_cases h16 : i < 16
      · have : i < 24 := by omega
        simp [pack32, hb b0 i (by omega), *]
      · by_cases h24 : i < 24
        · simp [pack32, hb b0 i (by omega), hb b1 (i - 8) (by omega), *]
        · simp [pack32, hb b0 i (by omega), hb b1 (i - 8) (by omega), hb b2 (i - 16) (by omega), *]
  · simp [pack32, h32]

/-- Byte `k` of a packed word, by its bits. -/
theorem byteOf_pack32_eq (b0 b1 b2 b3 b : Byte) (k : Nat) (hk : k < 4)
    (hb : ∀ i, i < 8 → (if 8 * k + i < 8 then b0.getLsbD (8 * k + i) else if 8 * k + i < 16 then b1.getLsbD (8 * k + i - 8)
      else if 8 * k + i < 24 then b2.getLsbD (8 * k + i - 16) else b3.getLsbD (8 * k + i - 24)) = b.getLsbD i) :
    byteOf k (pack32 b0 b1 b2 b3) = b := by
  apply BitVec.eq_of_getLsbD_eq
  intro i hi
  rw [byteOf_getLsbD, pack32_getLsbD, hb i hi]
  simp [hi, show 8 * k + i < 32 by omega]

theorem byteOf_pack32 (b0 b1 b2 b3 : Byte) :
    byteOf 0 (pack32 b0 b1 b2 b3) = b0 ∧ byteOf 1 (pack32 b0 b1 b2 b3) = b1 ∧
    byteOf 2 (pack32 b0 b1 b2 b3) = b2 ∧ byteOf 3 (pack32 b0 b1 b2 b3) = b3 := by
  refine ⟨byteOf_pack32_eq _ _ _ _ _ _ (by omega) fun i hi => ?_, byteOf_pack32_eq _ _ _ _ _ _ (by omega) fun i hi => ?_,
    byteOf_pack32_eq _ _ _ _ _ _ (by omega) fun i hi => ?_, byteOf_pack32_eq _ _ _ _ _ _ (by omega) fun i hi => ?_⟩
  · rw [if_pos (by omega)]; congr 1; omega
  · rw [if_neg (by omega), if_pos (by omega)]; congr 1; omega
  · rw [if_neg (by omega), if_neg (by omega), if_pos (by omega)]; congr 1; omega
  · rw [if_neg (by omega), if_neg (by omega), if_neg (by omega)]; congr 1; omega

theorem pack32_byteOf (w : Word) : pack32 (byteOf 0 w) (byteOf 1 w) (byteOf 2 w) (byteOf 3 w) = w := by
  apply BitVec.eq_of_getLsbD_eq
  intro i hi
  simp only [pack32_getLsbD, byteOf_getLsbD]
  by_cases h8 : i < 8
  · simp [h8, hi]
  · by_cases h16 : i < 16
    · simp [h8, h16, hi, show i - 8 < 8 by omega, show 8 + (i - 8) = i by omega]
    · by_cases h24 : i < 24
      · simp [h8, h16, h24, hi, show i - 16 < 8 by omega, show 16 + (i - 16) = i by omega]
      · simp [h8, h16, h24, hi, show i - 24 < 8 by omega, show 24 + (i - 24) = i by omega]

@[simp] theorem Half.word_ofWord (w : Word) : (Half.ofWord w).word = w := pack32_byteOf w

@[simp] theorem Half.ofWord_word (h : Half Byte) : Half.ofWord h.word = h := by
  obtain ⟨h0, h1, h2, h3⟩ := byteOf_pack32 h.b0 h.b1 h.b2 h.b3
  simp [Half.ofWord, Half.word, h0, h1, h2, h3]

/-- A byte of KEY after a write of KEYk (R37). -/
theorem setKeyWord_getElem (key : Vector Byte 32) (k : Fin 8) (v : Word) (i : Nat) (hi : i < 32) :
    (setKeyWord key k v)[i] = if i / 4 = k.val then byteOf (i % 4) v else key[i] := by
  simp [setKeyWord]

/-- The word written to KEYk is the word read from it (R37). -/
theorem keyWord_setKeyWord_same (key : Vector Byte 32) (k : Fin 8) (v : Word) :
    keyWord (setKeyWord key k v) k = v := by
  have hk := k.isLt
  simp only [keyWord, setKeyWord_getElem]
  rw [if_pos (by omega), if_pos (by omega), if_pos (by omega), if_pos (by omega),
    show 4 * k.val % 4 = 0 by omega, show (4 * k.val + 1) % 4 = 1 by omega, show (4 * k.val + 2) % 4 = 2 by omega,
    show (4 * k.val + 3) % 4 = 3 by omega]
  exact pack32_byteOf v

/-- A write of KEYk leaves the other key registers alone (R37). -/
theorem keyWord_setKeyWord_other (key : Vector Byte 32) (k l : Fin 8) (v : Word) (h : l ≠ k) :
    keyWord (setKeyWord key k v) l = keyWord key l := by
  have hv : l.val ≠ k.val := fun e => h (Fin.ext e)
  simp only [keyWord, setKeyWord_getElem]
  rw [if_neg (by omega), if_neg (by omega), if_neg (by omega), if_neg (by omega)]

end Sys2Proof.Machine
end

