-- ==== Sys2Proof/Laws/Port.lean ====
section
/-! SUPPORT. The register map as the claims speak of it (spec/20_memory.md R47), and an access to a register as its meaning. -/

namespace Sys2Proof.Machine

theorem memRead_of_reg {a : Offset} {r : Reg} (h : Reg.ofOffset a = some r) (s : State) :
    memRead a s = readReg r s := by rw [memRead, h]

theorem memWrite_of_reg {a : Offset} {r : Reg} (h : Reg.ofOffset a = some r) (v : Word) (s : State) :
    memWrite a v s = writeReg r v s := by rw [memWrite, h]

theorem memRead_of_none {a : Offset} (h : Reg.ofOffset a = none) (s : State) : memRead a s = (0, s) := by
  rw [memRead, h]

theorem memWrite_of_none {a : Offset} (h : Reg.ofOffset a = none) (v : Word) (s : State) :
    memWrite a v s = s.raise .access := by rw [memWrite, h]

theorem feed_read (D : Digest) (s : State) (a : Offset) :
    s.feed D (.host (.read a)) = .next { (memRead a s).2 with reply := some (memRead a s).1 } := rfl

theorem feed_write (D : Digest) (s : State) (a : Offset) (v : Word) : s.feed D (.host (.write a v)) = .next (memWrite a v s) := rfl

theorem feed_engine (D : Digest) (s : State) : s.feed D .engine = engineStep D s := rfl

theorem feed_reset (D : Digest) (s : State) : s.feed D .reset = .next s.resetEvent := rfl

/-- An error recorded, in the words of the claims. -/
theorem raise_eq_withError (s : State) (c : ErrorCode) : s.raise c = s.withError c.code := rfl

/-- An offset given by its number. -/
theorem Reg.ofOffset_of_toNat {a : Offset} {n : Nat} (h : a.toNat = n) : Reg.ofOffset a = Reg.ofOffset (BitVec.ofNat 14 n) := by
  subst h; simp

/-- A misaligned or unmapped offset has no register. -/
theorem Reg.ofOffset_bad {a : Offset} (h : a.toNat % 4 ≠ 0 ∨ unmapped a.toNat) : Reg.ofOffset a = none := by
  have ha := a.isLt
  simp only [unmapped] at h
  rw [Reg.ofOffset]
  by_cases h4 : a.toNat % 4 ≠ 0
  · exact if_pos h4
  · repeat first | rw [if_neg (by omega)] | rw [dif_neg (by omega)]

/-- The register at the offset of a word of KEY, DATA, SBOX or RSBOX. -/
theorem Reg.ofOffset_byteRegister {a : Offset} (h : byteRegister a.toNat) :
    (∃ k : Fin 8, a.toNat = 0x0020 + 4 * k.val ∧ Reg.ofOffset a = some (.key k)) ∨
    (a.toNat = 0x0040 ∧ Reg.ofOffset a = some .data0) ∨ (a.toNat = 0x0044 ∧ Reg.ofOffset a = some .data1) ∨
    (∃ w : Fin 64, a.toNat = 0x1000 + 4 * w.val ∧ Reg.ofOffset a = some (.sbox w)) ∨
    (∃ w : Fin 1024, a.toNat = 0x2000 + 4 * w.val ∧ Reg.ofOffset a = some (.rsbox w)) := by
  obtain ⟨h4, h⟩ := h
  by_cases h0 : a.toNat = 0x0040
  · exact .inr (.inl ⟨h0, Reg.ofOffset_of_toNat h0⟩)
  by_cases h1 : a.toNat = 0x0044
  · exact .inr (.inr (.inl ⟨h1, Reg.ofOffset_of_toNat h1⟩))
  rw [Reg.ofOffset]
  rcases h with h | h | h
  · refine .inl ⟨⟨(a.toNat - 0x0020) / 4, by omega⟩, by simp only; omega, ?_⟩
    repeat first | rw [if_neg (by omega)] | rw [dif_pos (by omega)]
  · refine .inr (.inr (.inr (.inl ⟨⟨(a.toNat - 0x1000) / 4, by omega⟩, by simp only; omega, ?_⟩)))
    repeat first | rw [if_neg (by omega)] | rw [dif_neg (by omega)] | rw [dif_pos (by omega)]
  · refine .inr (.inr (.inr (.inr ⟨⟨(a.toNat - 0x2000) / 4, by omega⟩, by simp only; omega, ?_⟩)))
    repeat first | rw [if_neg (by omega)] | rw [dif_neg (by omega)] | rw [dif_pos (by omega)]

/-- Every offset is bad, one of the seven control registers', or that of a word of KEY, DATA, SBOX or RSBOX. -/
theorem offset_cases (a : Offset) :
    (a.toNat % 4 ≠ 0 ∨ unmapped a.toNat) ∨ a.toNat = 0x0000 ∨ a.toNat = 0x0004 ∨ a.toNat = 0x0008 ∨ a.toNat = 0x000C ∨
    a.toNat = 0x0010 ∨ a.toNat = 0x0014 ∨ a.toNat = 0x0018 ∨ byteRegister a.toNat := by
  have ha := a.isLt
  simp only [unmapped, byteRegister]
  omega

end Sys2Proof.Machine
end

