-- ==== Sys2Proof/Tests/Slice0.lean ====
section
/-! SUPPORT. Tests. Every expected value is one of spec/95_test_vectors.md or of a worked example in a rule; the witnesses at the end show
that the hypotheses of the statements can be met. -/

namespace Sys2Proof.Tests

-- One theorem at a time: each `decide +kernel` waits for the kernel, and every waiting thread reserves a large stack.
set_option Elab.async false

open Sys2Proof Sys2Proof.Machine

/-- The state after a list of events. -/
def after (es : List Event) (s : State) : State :=
  match Host.Core.run core es.length { s with inputs := es } with
  | .next t => t
  | .fault _ => s
  | .refused _ => s

/-- A host write, by offset and word. -/
def W (a v : Nat) : Event := .host (.write (BitVec.ofNat 14 a) (BitVec.ofNat 32 v))

/-- A host read, by offset. -/
def R (a : Nat) : Event := .host (.read (BitVec.ofNat 14 a))

/-- A command written to CMD, and the engine's turn. -/
def C (v : Nat) : List Event := [W 0x0008 v, .engine]

/-! ### WellFormed and Decode -/

/-- An ill-formed term for each check of WellFormed (R73). -/
theorem test_wellFormed_refuses_rsvd : CmdFields.wellFormed ⟨0x8, 0, 1⟩ = false := by decide
theorem test_wellFormed_refuses_op : CmdFields.wellFormed ⟨0x9, 0, 0⟩ = false := by decide
theorem test_wellFormed_refuses_round : CmdFields.wellFormed ⟨0x6, 1, 0⟩ = false := by decide
theorem test_wellFormed_accepts_roundf : CmdFields.wellFormed ⟨0x8, 15, 0⟩ = true := by decide

/-- The words of V-ENC, bit by bit from R68: RSVD, ROUND, OP. -/
theorem test_decode_nop : decode 0b000000000000000000000000_0000_0000#32 = .ok .nop := by decide
theorem test_decode_pwdclr : decode 0b000000000000000000000000_0000_0001#32 = .ok .pwdclr := by decide
theorem test_decode_hash : decode 0b000000000000000000000000_0000_0010#32 = .ok .hash := by decide
theorem test_decode_ksched : decode 0b000000000000000000000000_0000_0011#32 = .ok .ksched := by decide
theorem test_decode_expand : decode 0b000000000000000000000000_0000_0100#32 = .ok .expand := by decide
theorem test_decode_setup : decode 0b000000000000000000000000_0000_0101#32 = .ok .setup := by decide
theorem test_decode_enc : decode 0b000000000000000000000000_0000_0110#32 = .ok .enc := by decide
theorem test_decode_dec : decode 0b000000000000000000000000_0000_0111#32 = .ok .dec := by decide
theorem test_decode_roundf_1 : decode 0b000000000000000000000000_0001_1000#32 = .ok (.roundf 1) := by decide
theorem test_decode_roundf_15 : decode 0b000000000000000000000000_1111_1000#32 = .ok (.roundf 15) := by decide
theorem test_decode_op_9 : decode 0x00000009 = .error .reservedOp := by decide
theorem test_decode_round_with_enc : decode 0x00000016 = .error .roundField := by decide
theorem test_decode_round_with_nop : decode 0x000000F0 = .error .roundField := by decide
theorem test_decode_rsvd_bit_8 : decode 0x00000108 = .error .reservedBits := by decide
theorem test_decode_rsvd_bit_31 : decode 0x80000000 = .error .reservedBits := by decide
theorem test_decodeTableWord : decodeTableWord 32 0x38 = some (.roundf 3) := by decide

/-! ### The commands -/

/-- V-CC CC1, CC2: NOP's lifecycle. -/
theorem test_nop_accept : (after [W 0x0008 0] .reset).statusWord = 0x00000001 := by decide +kernel
theorem test_nop_complete : (after (C 0) .reset).statusWord = 0x00000002 := by decide +kernel

/-- V-CC CC6: PWDCLR empties PWD. -/
theorem test_pwdclr :
    (after ([W 0x0014 0x61, W 0x0014 0x62, W 0x0014 0x63] ++ C 1 ++ [R 0x0018]) .reset).reply = some 0 := by
  decide +kernel

/-- V-KD-1: KEY0 and KEY7 of the empty password (DIGEST = SHA-256). -/
theorem test_hash_key0 : (after (C 2 ++ [R 0x0020]) .reset).reply = some 0x42C4B0E3 := by decide +kernel
theorem test_hash_key7 : (after (C 2 ++ [R 0x003C]) .reset).reply = some 0x55B85278 := by decide +kernel

/-- The key 00 01 … 1F of V-KD-2 and P1. -/
def countingKey : State := { State.reset with key := .ofFn fun i => BitVec.ofNat 8 i.val }

/-- P1 and V-KD-2: the first and the last SBOX word of that key. -/
theorem test_ksched_first : (after (C 3 ++ [R 0x1000]) countingKey).reply = some 0x06F102E1 := by decide +kernel
theorem test_ksched_last : (after (C 3) countingKey).sbox 255 = some 0x3C := by decide +kernel

/-- V-EXP-2: KEY = 0 gives the identity SBOX; the first and the last RSBOX word of its expansion. -/
theorem test_expand_first : (after (C 3 ++ C 4 ++ [R 0x2000]) .reset).reply = some 0x028B0100 := by decide +kernel
theorem test_expand_last : (shuffle (fun p => some (BitVec.ofNat 8 p)) 4096).byte 4095 = some 0x5A := by decide +kernel

/-- V-EXP-4: SETUP of the empty password. -/
theorem test_setup_sbox : (after (C 5) .reset).sbox 0 = some 0xE3 := by decide +kernel

/-- The 64 RSBOX bytes that the round trace V-FN-2 reads, at the indices R102 gives for its halves, with the values of its
column F. -/
def traceTables : State := { State.reset with mem :=
  [(0x2067, 0xEA), (0x20BC, 0x38), (0x20EF, 0x45), (0x20F0, 0x1F), (0x2127, 0x95), (0x2142, 0x0B), (0x2178, 0xF0), (0x2186, 0x03),
   (0x2269, 0xF1), (0x22B2, 0xD4), (0x22EC, 0x67), (0x22F0, 0xE0), (0x2389, 0xB1), (0x23A7, 0x6A), (0x23CA, 0x84), (0x23D8, 0xB0)] ++
  [(0x2414, 0xE8), (0x2468, 0x2F), (0x246A, 0xC4), (0x24A2, 0x4B), (0x254D, 0xC9), (0x2551, 0xE1), (0x2578, 0xF0), (0x2584, 0xC8),
   (0x266B, 0x92), (0x266C, 0x67), (0x26A0, 0xBF), (0x26FC, 0x47), (0x2720, 0xBF), (0x272A, 0xBB), (0x27C0, 0x80), (0x27D3, 0x22)] ++
  [(0x280E, 0x73), (0x2854, 0x68), (0x2865, 0xD9), (0x2882, 0x8B), (0x2910, 0x20), (0x2948, 0x90), (0x2957, 0x4A), (0x2959, 0x91),
   (0x2A12, 0x94), (0x2A7A, 0xE4), (0x2AA5, 0xA6), (0x2AD5, 0x86), (0x2B04, 0xC8), (0x2B19, 0x11), (0x2B58, 0x4F), (0x2BFF, 0xA5)] ++
  [(0x2C1A, 0xDB), (0x2C66, 0x43), (0x2CA8, 0x50), (0x2CDA, 0x5B), (0x2D70, 0x1F), (0x2DAF, 0xC5), (0x2DE3, 0xC2), (0x2DEC, 0x67),
   (0x2E03, 0x02), (0x2E18, 0xCF), (0x2EAE, 0xCC), (0x2EF9, 0x51), (0x2F0B, 0x2D), (0x2F89, 0xB1), (0x2FC1, 0x81), (0x2FFE, 0x6C)] }

/-- V-FN-1, V-FN-2 and V-FN-3: ENC of 01 23 45 67 89 AB CD EF, and DEC back, with no unwritten byte read. -/
theorem test_enc :
    let t := after ([W 0x0040 0x67452301, W 0x0044 0xEFCDAB89] ++ C 6) traceTables
    t.data.toList = [0x38, 0x7E, 0x0D, 0xFE, 0x27, 0x86, 0x5A, 0x99] ∧ t.fault = none := by decide +kernel
theorem test_dec :
    let t := after ([W 0x0040 0xFE0D7E38, W 0x0044 0x995A8627] ++ C 7) traceTables
    t.data.toList = [0x01, 0x23, 0x45, 0x67, 0x89, 0xAB, 0xCD, 0xEF] ∧ t.fault = none := by decide +kernel

/-- Round S-box 0 with S[i] = floor(i/2), the source's own example (V-SRC-1, P3). -/
def halves : State :=
  { State.reset with mem := (List.range 256).map fun i => (0x2000 + i, BitVec.ofNat 8 (i / 2)) }

/-- V-RF: ROUNDF 0 on 01 02 03 04, and on FF FF FF FF, where every addition wraps. -/
theorem test_roundf : (after (W 0x0040 0x04030201 :: C 8 ++ [R 0x0044]) halves).reply = some 0x05040302 := by
  decide +kernel
theorem test_roundf_wraps : (after (W 0x0040 0xFFFFFFFF :: C 8 ++ [R 0x0044]) halves).reply = some 0x7E7E7F7F := by
  decide +kernel

/-! ### The port, errors, the interrupt and reset -/

/-- V-MEM M14, M16, M17, M18, M20. -/
theorem test_inten_reserved : (after [W 0x0010 0xFFFFFFFF, R 0x0010] .reset).reply = some 3 := by decide +kernel
theorem test_key7_bytes : (after [W 0x003C 0x1F1E1D1C] .reset).key[28] = 0x1C := by decide +kernel
theorem test_sbox_last_word : (after [W 0x10FC 0xFFFEFDFC] .reset).sbox 252 = some 0xFC := by decide +kernel
theorem test_rsbox_word : (after [W 0x2100 0x03020100] .reset).rsbox 1 3 = some 3 := by decide +kernel
theorem test_pwd_data_low_byte : (after [W 0x0014 0xFFFFFF41] .reset).pwd = [0x41] := by decide +kernel

/-- V-EXC X1, X5, X10, X11, X17, X20. -/
theorem test_illegal_cmd : (after [W 0x0008 9] .reset).statusWord = 0x14 := by decide +kernel
theorem test_misaligned_write : (after [W 0x0002 0x12345678] .reset).statusWord = 0x44 := by decide +kernel
theorem test_busy_wins_over_illegal : (after [W 0x0008 0, W 0x0008 9] .reset).statusWord = 0x25 := by decide +kernel
theorem test_access_wins_over_busy : (after [W 0x0008 0, W 0x0001 0] .reset).statusWord = 0x45 := by decide +kernel
theorem test_first_error_kept : (after [W 0x0008 9, W 0x0000 0] .reset).statusWord = 0x14 := by decide +kernel
theorem test_error_survives_completion : (after [W 0x0008 0, W 0x0020 1, .engine] .reset).statusWord = 0x26 := by
  decide +kernel

/-- V-EXC I2, I4, I7: irq. -/
theorem test_irq_done : (after (W 0x0010 1 :: C 0) .reset).irq = true := by decide +kernel
theorem test_irq_accept_clears : (after (W 0x0010 1 :: C 0 ++ [W 0x0008 0]) .reset).irq = false := by decide +kernel
theorem test_irq_pending_enabled : (after [W 0x0008 9, W 0x0010 2] .reset).irq = true := by decide +kernel

/-- V-MEM M10, V-EXC X4: an unwritten byte records the fault, the command completes. -/
theorem test_unwritten_read : (after [R 0x1000] .reset).fault = some .unwrittenRam := by decide +kernel
theorem test_unwritten_roundf : (after (C 0xF8) .reset).statusWord = 2 := by decide +kernel

/-- V-RST: a reset in the busy state. -/
theorem test_reset_while_busy : (after [W 0x0008 0, .reset, .engine] .reset).statusWord = 0 := by decide +kernel

/-- The word put where the next step runs it is run: the step's result is the completion's. -/
theorem test_withFetchWord : (step (State.reset.withFetchWord 32 0x6)) = engineStep Config.digest (State.reset.accept .enc) := rfl

/-- V-HP-2, V-SRC-3: padding and its removal. -/
theorem test_addPadding : Driver.addPadding [0x61, 0x62, 0x63] = [0x61, 0x62, 0x63, 5, 5, 5, 5, 5] := by decide +kernel
theorem test_removePadding_digit :
    Driver.removePadding .faithful [0x41, 0x42, 0x43, 0x44, 0x45, 0x46, 0x47, 0x30] = .error .unpadUnknown := by
  decide +kernel

/-! ### Witnesses: the hypotheses of each statement, met together -/

/-- A device that is running NOP. -/
def busy : State := State.reset.accept .nop

/-- Every RAM byte written, with 0. -/
def zeroRam : State :=
  { State.reset with mem := (Memory.fill [] 0x1000 256 fun _ => 0).fill 0x2000 4096 fun _ => 0 }

/-- A half-block of zeros. -/
def zeroHalf : Half Byte := ⟨0, 0, 0, 0⟩

theorem zeroRam_read (a : Nat) (h : isRamOffset a = true) : zeroRam.mem.read a = some 0 := by
  rw [isRamOffset_iff] at h
  show ((Memory.fill [] 0x1000 256 fun _ => 0).fill 0x2000 4096 fun _ => 0).read a = _
  simp only [Memory.read_fill]
  split
  · rfl
  · rw [if_pos (by omega)]

theorem zeroRam_rsbox (r i : Nat) (hr : r < 16) (hi : i < 256) : zeroRam.rsbox r i = some 0 :=
  zeroRam_read _ <| (isRamOffset_iff _).2 <| .inr <| by rw [Config.rsboxBase]; omega

theorem zeroRam_roundBytes (r : Nat) (hr : r < 16) : zeroRam.roundBytes r zeroHalf = zeroHalf.map some := by
  simp [State.roundBytes, zeroHalf, zeroRam_rsbox r 0 hr (by decide), Half.map]

theorem witness_run_from_reset :
    ∃ t, Host.Core.run core 2 { State.reset with inputs := [W 0x0008 0, .engine] } = .next t := ⟨_, rfl⟩

theorem witness_inv : busy.Inv ∧ ∃ t, step busy = .next t :=
  ⟨⟨by decide, by decide, by decide, by decide, by decide, by decide⟩, _, rfl⟩

theorem witness_recordedFault : ∃ s t f, step s = .next t ∧ s.fault = some f :=
  ⟨{ busy with fault := some .unwrittenRam }, _, .unwrittenRam, rfl, rfl⟩

theorem witness_ramWritten : zeroRam.RamWritten ∧ (∃ t, step zeroRam = .next t) ∧ ¬ zeroRam.Resets :=
  ⟨fun a h => by simp [zeroRam_read a h], ⟨_, rfl⟩, fun ⟨_, h⟩ => by cases h⟩

/-- CMD, idle: the hypotheses about a command word, a legal and an Illegal one. -/
theorem witness_cmd_idle : (0x0008 : Offset).toNat = 0x0008 ∧ State.reset.busy = false ∧
    decode 0xF8 = .ok (.roundf 15) ∧ illegalWord 0x9 ∧ illegalWord 0x16 ∧ illegalWord 0x100 := by decide +kernel

theorem witness_cur : busy.cur = some .nop ∧ State.reset.cur = none ∧ State.reset.inputs = [] := by decide

theorem witness_stable : busy.busy = true ∧ ∃ t, Host.Core.run core 2
    { busy with inputs := [Txn.write 0x40 5, .read 0x20].map Event.host ++ [.engine] } = .next t := ⟨rfl, _, rfl⟩

theorem witness_race : (0x0040 : Offset).toNat = 0x0040 ∧ busy.busy = true ∧ busy.cur = some .nop ∧ busy.errf = false := by
  decide

/-- Bad offsets at the edges of the map's rows (R47). -/
theorem witness_bad_offsets : (0x0003 : Offset).toNat % 4 ≠ 0 ∧ unmapped (0x001C : Offset).toNat ∧
    unmapped (0x0048 : Offset).toNat ∧ unmapped (0x0FFC : Offset).toNat ∧ unmapped (0x1100 : Offset).toNat ∧
    unmapped (0x1FFC : Offset).toNat ∧ unmapped (0x3000 : Offset).toNat ∧ unmapped (0x3FFC : Offset).toNat := by
  decide +kernel

theorem witness_control_offsets : (0x0000 : Offset).toNat = 0 ∧ (0x0004 : Offset).toNat = 4 ∧
    (0x000C : Offset).toNat = 0xC ∧ (0x0010 : Offset).toNat = 0x10 ∧ (0x0014 : Offset).toNat = 0x14 ∧
    (0x0018 : Offset).toNat = 0x18 := by decide

/-- Protected registers at the edges of the map's rows, on a busy device. -/
theorem witness_protected_for_write : busy.busy = true ∧ protectedForWrite (0x0008 : Offset).toNat ∧
    protectedForWrite (0x0014 : Offset).toNat ∧ protectedForWrite (0x0020 : Offset).toNat ∧
    protectedForWrite (0x0044 : Offset).toNat ∧ protectedForWrite (0x10FC : Offset).toNat ∧
    protectedForWrite (0x2FFC : Offset).toNat := by decide +kernel

theorem witness_protected_for_read : busy.busy = true ∧ protectedForRead (0x0018 : Offset).toNat ∧
    protectedForRead (0x003C : Offset).toNat ∧ protectedForRead (0x1000 : Offset).toNat ∧
    protectedForRead (0x2000 : Offset).toNat := by decide +kernel

/-- The clauses of the idle reads and writes, each at the end of its range, and PWD at its bound. -/
theorem witness_idle_registers : State.reset.busy = false ∧ State.reset.pwd.length < 2 ^ 32 ∧
    (0x003C : Offset).toNat = 0x0020 + 4 * 7 ∧ (0x0040 : Offset).toNat = 0x0040 ∧ (0x0044 : Offset).toNat = 0x0044 ∧
    byteRegister (0x0020 : Offset).toNat ∧ byteRegister (0x0044 : Offset).toNat ∧ byteRegister (0x10FC : Offset).toNat ∧
    byteRegister (0x2FFC : Offset).toNat := by decide +kernel

theorem witness_pwd_full : ∃ s : State, s.busy = false ∧ s.pwd.length = 2 ^ 32 - 1 :=
  ⟨{ State.reset with pwd := List.replicate (2 ^ 32 - 1) 0 }, rfl, List.length_replicate ..⟩

/-- The last byte of each window, written. -/
theorem witness_window_bytes : (0x10FC : Offset).toNat = 0x1000 + 4 * (255 / 4) ∧ zeroRam.sbox 255 = some 0 ∧
    (0x2FFC : Offset).toNat = 0x2000 + 256 * 15 + 4 * (255 / 4) ∧ zeroRam.rsbox 15 255 = some 0 :=
  ⟨by decide, zeroRam_read _ (by decide), by decide, zeroRam_rsbox 15 255 (by decide) (by decide)⟩

/-- An unwritten window byte, and a window word all of whose bytes are written. -/
theorem witness_unwritten_window : State.reset.mem.read ((0x2FFC : Offset).toNat + 3) = none ∧
    ∀ k, k < 4 → (zeroRam.mem.read ((0x2FFC : Offset).toNat + k)).isSome = true :=
  ⟨rfl, fun k hk => by
    have h : isRamOffset ((0x2FFC : Offset).toNat + k) = true :=
      (isRamOffset_iff _).2 (.inr (by show 0x2000 ≤ 0x2FFC + k ∧ 0x2FFC + k < 0x3000; omega))
    rw [zeroRam_read _ h]; rfl⟩

theorem witness_errors : ({ State.reset with errf := true } : State).errf = true ∧ (0x0000 : Offset).toNat ≠ 0x000C ∧
    State.reset.errf = false := by decide

/-- R90's tables exist for every key: the model's own. -/
theorem witness_ksched (s : State) : ∃ T : Nat → Nat → Byte, (∀ k, k < 256 → T 0 k = BitVec.ofNat 8 k) ∧
    ∀ i, i < 256 → ∀ k, k < 256 →
      let j := (i + (s.key[i % 32]'(Nat.mod_lt i (by decide))).toNat) % 256
      T (i + 1) k = if k = i then T i j else if k = j then T i i else T i k :=
  ⟨fun n => (List.range n).foldl (swapStep s.key) (fun i => BitVec.ofNat 8 i), fun _ _ => rfl,
    fun i _ k _ => by simp only [swaps_succ]; rfl⟩

theorem witness_expand : (∀ i, i < 256 → (zeroRam.sbox i).isSome = true) ∧ State.reset.sbox 0 = none :=
  ⟨fun i hi => by
    have h : isRamOffset (Config.sboxBase + i) = true := (isRamOffset_iff _).2 (.inl (by rw [Config.sboxBase]; omega))
    simp [State.sbox, zeroRam_read _ h], rfl⟩

theorem witness_roundf : zeroRam.roundBytes (15 : BitVec 4).toNat zeroRam.data.left = zeroHalf.map some ∧
    (State.reset.roundBytes (0 : BitVec 4).toNat State.reset.data.left).unknown = true :=
  ⟨zeroRam_roundBytes 15 (by decide), rfl⟩

/-- Zero tables: R113's recursion from the zero block, in both directions. -/
theorem witness_enc_dec : zeroRam.data = ⟨zeroHalf, zeroHalf⟩ ∧
    ∀ r, r < 16 → zeroRam.roundBytes r zeroHalf = zeroHalf.map some ∧ zeroHalf = xorHalf zeroHalf zeroHalf :=
  ⟨rfl, fun r hr => ⟨zeroRam_roundBytes r hr, by decide⟩⟩

theorem witness_enc_unwritten : (State.reset.roundBytes 0 State.reset.data.right).unknown = true ∧
    (State.reset.roundBytes 15 State.reset.data.left).unknown = true ∧
    (∃ t, exec .enc State.reset = .next t) ∧ ∃ t, exec .dec State.reset = .next t := ⟨rfl, rfl, ⟨_, rfl⟩, _, rfl⟩

/-- States on which ENC and DEC read no unwritten byte (V-FN-2). -/
def plainBlock : State := { traceTables with data := ⟨⟨0x01, 0x23, 0x45, 0x67⟩, ⟨0x89, 0xAB, 0xCD, 0xEF⟩⟩ }
def cipherBlock : State := { traceTables with data := ⟨⟨0x38, 0x7E, 0x0D, 0xFE⟩, ⟨0x27, 0x86, 0x5A, 0x99⟩⟩ }

theorem enc_drawsNothing (s : State) (b : Block MByte) (hb : b = encNetwork .mbyte s.roundSbox s.operandBlock)
    (h : (b.left.unknown || b.right.unknown) = false) : ∃ t, exec .enc s = .next t ∧ s.DrawsNothing t := by
  subst hb
  refine ⟨_, rfl, ?_⟩
  unfold State.DrawsNothing State.storeBlock State.record
  rw [h]; rfl

theorem dec_drawsNothing (s : State) (b : Block MByte) (hb : b = decNetwork .mbyte s.roundSbox s.operandBlock)
    (h : (b.left.unknown || b.right.unknown) = false) : ∃ t, exec .dec s = .next t ∧ s.DrawsNothing t := by
  subst hb
  refine ⟨_, rfl, ?_⟩
  unfold State.DrawsNothing State.storeBlock State.record
  rw [h]; rfl

theorem known_enc : (let b := encNetwork .mbyte plainBlock.roundSbox plainBlock.operandBlock
    b.left.unknown || b.right.unknown) = false := by decide +kernel

theorem known_dec : (let b := decNetwork .mbyte cipherBlock.roundSbox cipherBlock.operandBlock
    b.left.unknown || b.right.unknown) = false := by decide +kernel

theorem witness_enc_draws_nothing : ∃ t, exec .enc plainBlock = .next t ∧ plainBlock.DrawsNothing t :=
  enc_drawsNothing plainBlock _ rfl known_enc

theorem witness_dec_draws_nothing : ∃ t, exec .dec cipherBlock = .next t ∧ cipherBlock.DrawsNothing t :=
  dec_drawsNothing cipherBlock _ rfl known_dec

theorem witness_zero_tables : ∀ k, k < 4096 → zeroRam.rsboxFlat k = some 0 := fun k hk =>
  zeroRam_read _ <| (isRamOffset_iff _).2 <| .inr <| by rw [Config.rsboxBase]; omega

/-- Steps that change KEY, SBOX, RSBOX, DATA and PWD. -/
theorem witness_writers :
    (after (C 2) .reset).key ≠ State.reset.key ∧ (after [W 0x1000 1] .reset).sbox 0 ≠ State.reset.sbox 0 ∧
    (after [W 0x2000 1] .reset).rsboxFlat 0 ≠ State.reset.rsboxFlat 0 ∧
    (after [W 0x0044 1] .reset).data ≠ State.reset.data ∧ (after [W 0x0014 1] .reset).pwd ≠ State.reset.pwd := by
  decide +kernel

/-- Two passwords of one length, and a read that draws nothing. -/
def onePassword : State := { State.reset with pwd := [0x61] }

theorem witness_password (D : Digest) : ([0x62] : List Byte).length = onePassword.pwd.length ∧
    ∃ t, onePassword.feed D (.host (.read 0x18)) = .next t ∧ onePassword.DrawsNothing t := ⟨rfl, _, rfl, rfl⟩

/-- Padding: a last byte on each side of every edge of R121 and R122, in a buffer of 8 bytes; a buffer of 7. -/
theorem witness_padding : ([0x41, 0x42, 0x43, 0x44, 0x45, 0x46, 0x47] ++ [0x30] : List Byte).length % 8 = 0 ∧
    ([0x41, 0x42, 0x43, 0x44, 0x45, 0x46, 0x47] : List Byte).length % 8 ≠ 0 := by decide

theorem witness_driver : ([] : List Byte).length ≤ 2 ^ 32 - 1 ∧ State.reset.busy = false ∧ State.reset.errf = false := by
  decide

/-- A password that is too long, with a ciphertext of a right and of a wrong length. -/
theorem witness_password_too_long : (∃ pw : List Byte, 2 ^ 32 - 1 < pw.length) ∧ ([] : List Byte).length % 8 = 0 ∧
    ([0x41] : List Byte).length % 8 ≠ 0 :=
  ⟨⟨List.replicate (2 ^ 32) 0, by rw [List.length_replicate]; decide⟩, by decide, by decide⟩

theorem witness_digest : Instr.nop ≠ .hash ∧ Instr.nop ≠ .setup := by decide

end Sys2Proof.Tests
end

section
/-! SUPPORT. The parameter DIGEST (spec/00_scope.md R10, spec/41_key_derivation.md R88). -/

namespace Sys2Proof.Machine

/-- The machine the host runs is the machine with the device's digest (R10). -/
theorem core_eq_coreAt : core = coreAt Config.digest := rfl

/-- HASH with any digest: KEY takes the digest of PWD, and every other field is kept (R88). -/
theorem execAt_hash (D : Digest) (s : State) : execAt D .hash s = .next { s with key := D s.pwd } := rfl

/-- Settles O60: the machine, its step and its commands are those with `Config.digest`, and away from HASH and SETUP no
command reads the digest. -/
theorem theDeviceIsTheMachineWithItsDigest : Obligations.TheDeviceIsTheMachineWithItsDigest :=
  ⟨core_eq_coreAt, step_eq_stepAt, exec_eq_execAt,
    fun D s => ⟨execAt_hash D s, fun _ hh hs => execAt_eq_exec D hh hs s⟩⟩

end Sys2Proof.Machine
end

section
/-! SUPPORT. What a command, a host access and a step can do, in the words that the invariants of 10_state.md need: a command's
frame (R79), the effects of a write (R58), and the kinds of a step (R20). -/

namespace Sys2Proof.Machine

/-! ### The commands -/

/-- The record of R40 touches only the model's own two fields. -/
theorem State.record_frame (s : State) (u : Bool) :
    s.record u = { s with fault := (s.record u).fault, draws := (s.record u).draws } := by cases u <;> rfl

/-- The record of R40 is left as it is, or holds the fault. -/
theorem State.record_fault_cases (s : State) (u : Bool) :
    (s.record u).fault = s.fault ∨ (s.record u).fault = some .unwrittenRam := by
  cases u
  · exact .inl rfl
  · exact .inr rfl

@[simp] theorem hashKey_mem (D : Digest) (s : State) : (hashKey D s).mem = s.mem := rfl
@[simp] theorem expandSbox_fault (s : State) :
    (expandSbox s).fault = if sboxUnknown s then some .unwrittenRam else s.fault := s.record_fault _
@[simp] theorem State.storeBlock_fault (s : State) (b : Block MByte) :
    (s.storeBlock b).fault = if b.left.unknown || b.right.unknown then some .unwrittenRam else s.fault :=
  s.record_fault _

/-- EXPAND touches the RAMs and the model's record only (R94). -/
theorem expandSbox_frame (s : State) :
    expandSbox s = { s with mem := (expandSbox s).mem, fault := (expandSbox s).fault, draws := (expandSbox s).draws } := by
  unfold expandSbox
  rw [s.record_frame]

/-- The network's result touches DATA and the model's record only (R109). -/
theorem State.storeBlock_frame (s : State) (b : Block MByte) :
    s.storeBlock b
      = { s with data := (s.storeBlock b).data, fault := (s.storeBlock b).fault, draws := (s.storeBlock b).draws } := by
  unfold State.storeBlock
  rw [s.record_frame]

section
variable {D : Digest} {i : Instr} {s t : State}

/-- A command touches PWD, KEY, DATA, the RAMs and the model's record, and nothing else of the state (R79). -/
theorem execAt_frame (h : execAt D i s = .next t) :
    t = { s with pwd := t.pwd, key := t.key, data := t.data, mem := t.mem, fault := t.fault, draws := t.draws } := by
  cases i with
  | nop | pwdclr | hash | ksched => cases h; rfl
  | expand => cases h; rw [expandSbox_frame]
  | setup => cases h; rw [setupTables, expandSbox_frame]; rfl
  | enc | dec => cases h; rw [State.storeBlock_frame]
  | roundf r => cases h; rw [State.record_frame]

/-- A command leaves PWD as it is or empties it (R85). -/
theorem execAt_pwd (h : execAt D i s = .next t) : t.pwd = s.pwd ∨ t.pwd = [] := by
  cases i with
  | pwdclr => cases h; exact .inr rfl
  | nop | hash | ksched => cases h; exact .inl rfl
  | expand | setup | enc | dec | roundf => cases h; exact .inl (State.record_pwd ..)

/-- A command keeps the canonical form of the RAMs. -/
theorem execAt_mem_wf (h : execAt D i s = .next t) (hm : s.mem.wf) : t.mem.wf := by
  cases i with
  | nop | pwdclr | hash => cases h; exact hm
  | ksched => cases h; exact scheduleSbox_wf s hm
  | expand => cases h; exact expandSbox_wf s hm
  | setup => cases h; exact expandSbox_wf _ (scheduleSbox_wf (hashKey D s) hm)
  | enc | dec | roundf => cases h; exact (State.record_mem ..).symm ▸ hm

/-- A command leaves the record of R40 as it is, or records the fault. -/
theorem execAt_fault (h : execAt D i s = .next t) : t.fault = s.fault ∨ t.fault = some .unwrittenRam := by
  cases i with
  | nop | pwdclr | hash | ksched => cases h; exact .inl rfl
  | expand | setup | enc | dec | roundf => cases h; exact State.record_fault_cases ..

end

/-! ### The host's accesses -/

/-- The offset of a word of the SBOX or the RSBOX window (R47, R49). -/
abbrev windowWord (a : Nat) : Prop := a % 4 = 0 ∧ ((0x1000 ≤ a ∧ a ≤ 0x10FC) ∨ (0x2000 ≤ a ∧ a ≤ 0x2FFC))

/-- The four bytes of a window word are RAM bytes (R49). -/
theorem isRamOffset_of_windowWord {a : Nat} (h : windowWord a) (k : Nat) (hk : k < 4) : isRamOffset (a + k) = true := by
  rw [isRamOffset_iff]; omega

theorem Reg.key_offset_toNat (k : Fin 8) : (Reg.key k).offset.toNat = 0x0020 + 4 * k.val :=
  Nat.mod_eq_of_lt (by have hk := k.isLt; omega)

theorem Reg.sbox_offset_toNat (w : Fin 64) : (Reg.sbox w).offset.toNat = sboxWord w :=
  Nat.mod_eq_of_lt (by have hw := w.isLt; omega)

theorem Reg.rsbox_offset_toNat (w : Fin 1024) : (Reg.rsbox w).offset.toNat = rsboxWord w :=
  Nat.mod_eq_of_lt (by have hw := w.isLt; omega)

theorem windowWord_sboxWord (w : Fin 64) : windowWord (sboxWord w) := by
  have hw := w.isLt
  rw [windowWord, sboxWord, Config.sboxBase]; omega

theorem windowWord_rsboxWord (w : Fin 1024) : windowWord (rsboxWord w) := by
  have hw := w.isLt
  rw [windowWord, rsboxWord, Config.rsboxBase]; omega

/-- The register map read from right to left (R47): the register at an offset stands at that offset. -/
theorem Reg.toNat_of_ofOffset {a : Offset} {r : Reg} (h : Reg.ofOffset a = some r) : a.toNat = r.offset.toNat := by
  have same {q : Reg} (hq : Reg.ofOffset a = some q) : q = r := Option.some.inj (hq.symm.trans h)
  rcases offset_cases a with hb | h0 | h0 | h0 | h0 | h0 | h0 | h0 | hb
  · rw [Reg.ofOffset_bad hb] at h; cases h
  on_goal 8 =>
    rcases Reg.ofOffset_byteRegister hb with ⟨k, ha, hr⟩ | ⟨ha, hr⟩ | ⟨ha, hr⟩ | ⟨w, ha, hr⟩ | ⟨w, ha, hr⟩
    · rw [← same hr, Reg.key_offset_toNat, ha]
    · rw [← same hr, ha]; rfl
    · rw [← same hr, ha]; rfl
    · rw [← same hr, Reg.sbox_offset_toNat, ha]; rfl
    · rw [← same hr, Reg.rsbox_offset_toNat, ha]; rfl
  all_goals
    rw [Reg.ofOffset_of_toNat h0] at h
    cases h
    exact h0

/-- What a read of offset `a` can answer (R57), the word and the state after it. -/
inductive ReadEffect (s : State) (a : Offset) : Word × State → Prop
  /-- A word, with no draw. -/
  | word (w : Word) : ReadEffect s a (w, s)
  /-- A protected register while BUSY = 1 (R56). -/
  | busy : s.busy = true → ReadEffect s a (Config.freeWord s.draws, { s with draws := s.draws + 1 })
  /-- A window word, at its own offset (R49). -/
  | window : windowWord a.toNat → s.busy = false → ReadEffect s a (s.readWindow a.toNat)

/-- A protected register is read while BUSY = 0, or the word is a free value (R56). -/
theorem ReadEffect.readIfIdle {s : State} {a : Offset} {f : State → Word × State}
    (h : s.busy = false → ReadEffect s a (f s)) : ReadEffect s a (s.readIfIdle f) := by
  unfold State.readIfIdle
  split
  · next hb => exact .busy hb
  · next hb => exact h (by simpa using hb)

/-- The effect of a read, register by register. -/
theorem readReg_effect (s : State) {a : Offset} {r : Reg} (hr : Reg.ofOffset a = some r) :
    ReadEffect s a (readReg r s) := by
  have ha := Reg.toNat_of_ofOffset hr
  cases r with
  | id | version | cmd | status | inten | pwdData => exact .word _
  | pwdLen | key | data0 | data1 => exact .readIfIdle fun _ => .word _
  | sbox w =>
    rw [Reg.sbox_offset_toNat] at ha
    rw [readReg, ← ha]
    exact .readIfIdle (.window (ha ▸ windowWord_sboxWord w))
  | rsbox w =>
    rw [Reg.rsbox_offset_toNat] at ha
    rw [readReg, ← ha]
    exact .readIfIdle (.window (ha ▸ windowWord_rsboxWord w))

/-- A read has one of the effects listed. -/
theorem memRead_effect (s : State) (a : Offset) : ReadEffect s a (memRead a s) := by
  cases hr : Reg.ofOffset a with
  | none => rw [memRead_of_none hr]; exact .word _
  | some r => rw [memRead_of_reg hr]; exact readReg_effect s hr

/-- A read leaves the record of R40 as it is, or records the fault. -/
theorem ReadEffect.fault {s : State} {a : Offset} {x : Word × State} (h : ReadEffect s a x) :
    x.2.fault = s.fault ∨ x.2.fault = some .unwrittenRam := by
  cases h with
  | word | busy => exact .inl rfl
  | window => exact s.record_fault_cases _

/-- What a write of `v` to offset `a` can do (R58): an error, or the effect of the register at `a`. -/
inductive WriteEffect (s : State) (a : Offset) (v : Word) : State → Prop
  /-- R52, R53, R54, R55, R77 and R86: the write is refused with an error. -/
  | refused (c : ErrorCode) : WriteEffect s a v (s.raise c)
  /-- STATUS (R27). -/
  | status : a.toNat = 0x000C → WriteEffect s a v (s.writeStatus v)
  /-- INTEN (R31). -/
  | inten : a.toNat = 0x0010 → WriteEffect s a v (s.writeInten v)
  /-- CMD, a command word (R78). -/
  | accepted (i : Instr) : a.toNat = 0x0008 → s.busy = false → decode v = .ok i → WriteEffect s a v (s.accept i)
  /-- PWD_DATA, with room in PWD (R86). -/
  | absorbed : a.toNat = 0x0014 → s.busy = false → s.pwd.length ≠ Config.pwdMax →
      WriteEffect s a v { s with pwd := s.pwd ++ [byteOf 0 v] }
  /-- A word of KEY (R37). -/
  | key (k : Fin 8) : a.toNat = 0x0020 + 4 * k.val → s.busy = false →
      WriteEffect s a v { s with key := setKeyWord s.key k v }
  /-- DATA0 (R41). -/
  | data0 : a.toNat = 0x0040 → s.busy = false → WriteEffect s a v { s with data := ⟨.ofWord v, s.data.right⟩ }
  /-- DATA1 (R41). -/
  | data1 : a.toNat = 0x0044 → s.busy = false → WriteEffect s a v { s with data := ⟨s.data.left, .ofWord v⟩ }
  /-- A window word, at its own offset (R49). -/
  | window : windowWord a.toNat → s.busy = false →
      WriteEffect s a v { s with mem := s.mem.writeWord a.toNat v }

/-- A protected register is written while BUSY = 0, or the write is refused (R55). -/
theorem WriteEffect.ifIdle {s : State} {a : Offset} {v : Word} {f : State → State}
    (h : s.busy = false → WriteEffect s a v (f s)) : WriteEffect s a v (s.ifIdle f) := by
  cases hb : s.busy
  · rw [s.ifIdle_of_idle f hb]; exact h hb
  · rw [s.ifIdle_of_busy f hb]; exact .refused .busy

/-- The effect of a write, register by register. -/
theorem writeReg_effect (s : State) {a : Offset} {r : Reg} (hr : Reg.ofOffset a = some r) (v : Word) :
    WriteEffect s a v (writeReg r v s) := by
  have ha := Reg.toNat_of_ofOffset hr
  cases r <;> rw [writeReg]
  case id | version | pwdLen => exact .refused .access
  case status => exact .status ha
  case inten => exact .inten ha
  case cmd =>
    refine .ifIdle fun hb => ?_
    rcases submit_cases s v with ⟨i, hi, e⟩ | ⟨_, -, e⟩
    · rw [e]; exact .accepted i ha hb hi
    · rw [e]; exact .refused .illegalCmd
  case pwdData =>
    refine .ifIdle fun hb => ?_
    by_cases hl : s.pwd.length = Config.pwdMax
    · rw [s.absorb_of_full _ hl]; exact .refused .pwdOverflow
    · rw [s.absorb_of_room _ hl]; exact .absorbed ha hb hl
  case key k => exact .ifIdle (.key k (ha.trans (Reg.key_offset_toNat k)))
  case data0 => exact .ifIdle (.data0 ha)
  case data1 => exact .ifIdle (.data1 ha)
  case sbox w =>
    rw [Reg.sbox_offset_toNat] at ha
    rw [← ha]
    exact .ifIdle (.window (ha ▸ windowWord_sboxWord w))
  case rsbox w =>
    rw [Reg.rsbox_offset_toNat] at ha
    rw [← ha]
    exact .ifIdle (.window (ha ▸ windowWord_rsboxWord w))

/-- A write has one of the effects listed. -/
theorem memWrite_effect (s : State) (a : Offset) (v : Word) : WriteEffect s a v (memWrite a v s) := by
  cases hr : Reg.ofOffset a with
  | none => rw [memWrite_of_none hr]; exact .refused .access
  | some r => rw [memWrite_of_reg hr]; exact writeReg_effect s hr v

/-! ### The step -/

/-- The state with the next event taken off those still to come. -/
def State.dropEvent (s : State) : State := { s with inputs := s.inputs.tail }

theorem State.dropEvent_of_nil {s : State} (h : s.inputs = []) : s.dropEvent = s := by
  obtain ⟨⟩ := s
  cases h
  rfl

theorem State.dropEvent_of_cons {s : State} {e : Event} {rest : List Event} (h : s.inputs = e :: rest) :
    s.dropEvent = { s with inputs := rest } := by rw [State.dropEvent, h, List.tail_cons]

/-- What a step can do (R20). -/
inductive StepEffect (D : Digest) (s : State) : State → Prop
  /-- The engine's turn with no command in flight (R149). -/
  | idle : s.cur = none → (s.inputs = [] ∨ ∃ rest, s.inputs = .engine :: rest) → StepEffect D s s.dropEvent
  /-- The completion of the command in flight (R79). -/
  | completion (i : Instr) (x : State) : s.Completes i → execAt D i s.dropEvent = .next x → StepEffect D s x.complete
  /-- A host read (R57). -/
  | read (a : Offset) : (∃ rest, s.inputs = .host (.read a) :: rest) → StepEffect D s (hostStep (.read a) s.dropEvent)
  /-- A host write (R58). -/
  | write (a : Offset) (v : Word) (t : State) : s.Writes a.toNat v → WriteEffect s.dropEvent a v t → StepEffect D s t
  /-- A reset (R150). -/
  | reset : s.Resets → StepEffect D s s.dropEvent.resetEvent

/-- The engine's turn, in the words of a step's effects. -/
theorem engineStep_effect {D : Digest} {s t : State} (hi : s.inputs = [] ∨ ∃ rest, s.inputs = .engine :: rest)
    (h : engineStep D s.dropEvent = .next t) : StepEffect D s t := by
  rcases engineStep_cases h with ⟨hc, rfl⟩ | ⟨i, x, hc, hx, rfl⟩
  · exact .idle hc hi
  · exact .completion i x ⟨hc, hi⟩ hx

/-- A step has one of the effects listed. -/
theorem stepAt_effect {D : Digest} {s t : State} (h : stepAt D s = .next t) : StepEffect D s t := by
  rcases stepAt_cases h with ⟨e, h⟩ | ⟨rest, e, h⟩ | ⟨x, rest, e, rfl⟩ | ⟨rest, e, rfl⟩
  · rw [← State.dropEvent_of_nil e] at h
    exact engineStep_effect (.inl e) h
  · rw [← State.dropEvent_of_cons e] at h
    exact engineStep_effect (.inr ⟨rest, e⟩) h
  · rw [← State.dropEvent_of_cons e]
    cases x with
    | read a => exact .read a ⟨rest, e⟩
    | write a v => exact .write a v _ ⟨a, rest, rfl, e⟩ (memWrite_effect ..)
  · rw [← State.dropEvent_of_cons e]
    exact .reset ⟨rest, e⟩

end Sys2Proof.Machine
end

section
/-! SUPPORT. The invariants of 10_state.md R45, at reset, over every step, and along every run. -/

namespace Sys2Proof.Machine

/-- Every error cause has a number from 1 to 4 (R132). -/
theorem ErrorCode.code_mem (c : ErrorCode) : c.code ∈ [1, 2, 3, 4] := by cases c <;> decide

theorem ErrorCode.code_le (c : ErrorCode) : c.code.toNat ≤ 4 := by cases c <;> decide

section
variable {D : Digest} {i : Instr} {s t : State} {a : Offset} {v : Word}

/-- The model's record, the host's reply and the events still to come are no part of the invariants. -/
theorem State.Inv.withModelFields (h : s.Inv) (f : Option Fault) (n : Nat) (r : Option Word) (es : List Event) :
    State.Inv { s with fault := f, draws := n, reply := r, inputs := es } := { h with }

/-- KEY and DATA are no part of the invariants. -/
theorem State.Inv.withOperands (h : s.Inv) (key : Vector Byte 32) (data : Block Byte) :
    State.Inv { s with key := key, data := data } := { h with }

theorem State.Inv.raise (h : s.Inv) (c : ErrorCode) : (s.raise c).Inv where
  busyAgrees := by simpa using h.busyAgrees
  busyNotDone := by simpa using h.busyNotDone
  noErrorNoCode := by simp
  codeInRange := by
    rw [State.raise_errcode]
    split
    · exact h.codeInRange
    · exact c.code_le
  pwdBounded := by simpa using h.pwdBounded
  memWf := by simpa using h.memWf

theorem State.Inv.writeStatus (h : s.Inv) (v : Word) : (s.writeStatus v).Inv :=
  { h with
    busyNotDone := fun hb => by simp [h.busyNotDone hb]
    noErrorNoCode := by
      rw [State.writeStatus_errf, State.writeStatus_errcode]
      split
      · exact fun _ => rfl
      · exact h.noErrorNoCode
    codeInRange := by
      rw [State.writeStatus_errcode]
      split
      · decide
      · exact h.codeInRange }

/-- A completion keeps the invariants, R79's lifecycle writes included. -/
theorem State.Inv.completion (hs : s.Inv) (h : execAt D i s = .next t) : t.complete.Inv where
  busyAgrees := rfl
  busyNotDone := nofun
  noErrorNoCode := by rw [execAt_frame h]; exact hs.noErrorNoCode
  codeInRange := by rw [execAt_frame h]; exact hs.codeInRange
  pwdBounded := by
    show t.pwd.length ≤ _
    rcases execAt_pwd h with e | e <;> rw [e]
    · exact hs.pwdBounded
    · exact Nat.zero_le _
  memWf := show t.mem.wf from execAt_mem_wf h hs.memWf

/-- The state after a read keeps the invariants. -/
theorem State.Inv.read (h : s.Inv) (a : Offset) : (hostStep (.read a) s).Inv := by
  rw [hostStep, memRead_state]
  exact h.withModelFields ..

/-- Every effect of a write keeps the invariants. -/
theorem WriteEffect.inv (h : WriteEffect s a v t) (hs : s.Inv) : t.Inv := by
  cases h with
  | refused c => exact hs.raise c
  | status => exact hs.writeStatus v
  | inten => exact { hs with }
  | key | data0 | data1 => exact hs.withOperands ..
  | accepted i => exact { hs with busyAgrees := rfl, busyNotDone := fun _ => rfl }
  | absorbed _ _ hl =>
    have hp := hs.pwdBounded
    rw [Config.pwdMax] at hl
    exact { hs with pwdBounded := by simp only [List.length_append, List.length_singleton]; omega }
  | window hw => exact { hs with memWf := Memory.writeWord_wf _ _ _ hs.memWf (isRamOffset_of_windowWord hw) }

/-- Settles O6. -/
theorem resetSatisfiesTheInvariants : Obligations.ResetSatisfiesTheInvariants where
  busyAgrees := rfl
  busyNotDone := nofun
  noErrorNoCode _ := rfl
  codeInRange := Nat.zero_le _
  pwdBounded := Nat.zero_le _
  memWf := Memory.reset_wf

/-- A reset leaves R44's values, whatever came before. -/
theorem State.inv_resetEvent (s : State) : s.resetEvent.Inv :=
  resetSatisfiesTheInvariants.withModelFields ..

theorem State.Inv.dropEvent (h : s.Inv) : s.dropEvent.Inv := h.withModelFields ..

theorem StepEffect.inv (h : StepEffect D s t) (hs : s.Inv) : t.Inv := by
  cases h with
  | idle => exact hs.dropEvent
  | completion i x _ hx => exact hs.dropEvent.completion hx
  | read a => exact hs.dropEvent.read a
  | write a v _ _ hw => exact hw.inv hs.dropEvent
  | reset => exact State.inv_resetEvent _

end

/-- Settles O7: each of a step's effects keeps the invariants. -/
theorem everyStepKeepsTheInvariants : Obligations.EveryStepKeepsTheInvariants :=
  fun _ _ _ hs h => (stepAt_effect h).inv hs

/-- What holds at the start of a run and is kept by every step holds at its end. -/
theorem run_induction {M : Host.Core} {P : M.State → Prop} (step : ∀ s t, P s → M.step s = .next t → P t) (n : Nat)
    {s t : M.State} (hs : P s) (h : M.run n s = .next t) : P t := by
  induction n generalizing s with
  | zero => cases h; exact hs
  | succ n ih =>
    rw [Host.Core.run] at h
    split at h
    · next u hu => exact ih (step s u hs hu) h
    · cases h
    · cases h

theorem inv_of_run {D : Digest} {es : List Event} {n : Nat} {t : State}
    (h : (coreAt D).run n { State.reset with inputs := es } = .next t) : t.Inv :=
  run_induction (M := coreAt D) (everyStepKeepsTheInvariants D) n
    (resetSatisfiesTheInvariants.withModelFields ..) h

/-- The numbers that ERRCODE can hold, listed (R132). -/
theorem errcode_mem_of_le (c : BitVec 4) (h : c.toNat ≤ 4) : c ∈ [0, 1, 2, 3, 4] := by
  revert c; decide

/-- Settles O8, by induction on the run. -/
theorem reachableStatesSatisfyTheInvariants : Obligations.ReachableStatesSatisfyTheInvariants := by
  intro D es n t h
  have ht := inv_of_run h
  exact ⟨by rw [ht.busyAgrees, Option.isSome_iff_ne_none], ht.busyNotDone, ht.noErrorNoCode,
    errcode_mem_of_le _ ht.codeInRange, ht.pwdBounded⟩

end Sys2Proof.Machine
end

section
/-! SUPPORT. Unwritten RAM bytes and the recorded fault (10_state.md R40, 70_reset_and_hazards.md R155). -/

namespace Sys2Proof.Machine

section
variable {D : Digest} {i : Instr} {s t : State} {a : Offset} {v : Word}

/-! ### The record is never cleared -/

/-- A write does not touch the record. -/
theorem WriteEffect.fault (h : WriteEffect s a v t) : t.fault = s.fault := by
  cases h with
  | refused c => exact s.raise_fault c
  | status | inten | accepted | absorbed | key | data0 | data1 | window => rfl

/-- A step leaves the record of R40 as it is, or records the fault. -/
theorem StepEffect.fault (h : StepEffect D s t) : t.fault = s.fault ∨ t.fault = some .unwrittenRam := by
  cases h with
  | idle | reset => exact .inl rfl
  | completion i x _ hx => rw [State.complete_fault]; exact (execAt_fault hx :)
  | read a => exact (memRead_effect _ a).fault
  | write a v _ _ hw => exact .inl hw.fault

/-- Settles O10: the one fault there is stays or is recorded anew. -/
theorem recordedFaultIsNeverCleared : Obligations.RecordedFaultIsNeverCleared := by
  intro D s t f h hf
  rcases (stepAt_effect h).fault with e | e
  · exact e.trans hf
  · exact e

/-! ### While every RAM byte is written -/

theorem State.RamWritten.of_mem_eq (hs : s.RamWritten) (h : t.mem = s.mem) : t.RamWritten :=
  fun x hx => h ▸ hs x hx

theorem State.RamWritten.dropEvent (hs : s.RamWritten) : s.dropEvent.RamWritten := hs

/-- A fill unwrites no RAM byte. -/
theorem State.RamWritten.of_fill {base n : Nat} {f : Nat → Byte} (hs : s.RamWritten) (h : t.mem = s.mem.fill base n f) :
    t.RamWritten := by
  intro x hx
  rw [h, Memory.read_fill]
  split
  · rfl
  · exact hs x hx

theorem scheduleSbox_ramWritten (hs : s.RamWritten) : (scheduleSbox s).RamWritten := hs.of_fill rfl

theorem expandSbox_ramWritten (hs : s.RamWritten) : (expandSbox s).RamWritten := hs.of_fill rfl

/-- EXPAND reads no unwritten byte. -/
theorem sboxUnknown_of_ramWritten (hs : s.RamWritten) : sboxUnknown s = false := by
  rw [sboxUnknown, List.any_eq_false]
  intro i hi
  have hi := List.mem_range.1 hi
  have hx : isRamOffset (Config.sboxBase + i) = true :=
    (isRamOffset_iff _).2 (.inl (by rw [Config.sboxBase]; rw [Config.sboxBytes] at hi; omega))
  rw [State.sbox, Option.isNone_iff_eq_none, ← Option.not_isSome_iff_eq_none, hs _ hx]
  decide

theorem expandSbox_fault_of_ramWritten (hs : s.RamWritten) : (expandSbox s).fault = s.fault := by
  rw [expandSbox_fault, sboxUnknown_of_ramWritten hs]; rfl

/-- A known index into a round S-box gives a known byte. -/
theorem rsbox_isSome (hs : s.RamWritten) {r : Nat} (hr : r < 16) (b : Byte) : (s.rsbox r b.toNat).isSome = true :=
  hs _ <| (isRamOffset_iff _).2 <| .inr <| by
    have hb := b.isLt
    rw [Config.rsboxBase]; omega

/-- F of a known half-block is known. -/
theorem F_known (hs : s.RamWritten) {r : Nat} (hr : r < 16) {h : Half MByte} (hk : h.unknown = false) :
    (F .mbyte h (s.roundSbox r)).unknown = false := by
  obtain ⟨g, rfl⟩ := h.eq_map_some_of_known hk
  rw [F_map_some g (s.roundSbox r) fun b => (s.rsbox r b.toNat).get (rsbox_isSome hs hr b)]
  · rfl
  · intro b; simp

/-- No byte of the block is, or was computed from, an unwritten RAM byte. -/
abbrev Block.Known (b : Block MByte) : Prop := b.left.unknown = false ∧ b.right.unknown = false

theorem encRound_known (hs : s.RamWritten) {r : Nat} (hr : r < 16) {b : Block MByte} (hb : b.Known) :
    (encRound .mbyte s.roundSbox b r).Known :=
  ⟨hb.2, by rw [encRound, Half.unknown_zip_xor, hb.1, F_known hs hr hb.2]; rfl⟩

theorem decRound_known (hs : s.RamWritten) {r : Nat} (hr : r < 16) {b : Block MByte} (hb : b.Known) :
    (decRound .mbyte s.roundSbox b r).Known :=
  ⟨by rw [decRound, Half.unknown_zip_xor, hb.2, F_known hs hr hb.1]; rfl, hb.1⟩

theorem operandBlock_known (s : State) : s.operandBlock.Known := ⟨rfl, rfl⟩

theorem encNetwork_known (hs : s.RamWritten) : (encNetwork .mbyte s.roundSbox s.operandBlock).Known :=
  List.foldlRecOn _ _ (operandBlock_known s) fun _ hb _ hr => encRound_known hs (List.mem_range.1 hr) hb

theorem decNetwork_known (hs : s.RamWritten) : (decNetwork .mbyte s.roundSbox s.operandBlock).Known :=
  List.foldlRecOn _ _ (operandBlock_known s) fun _ hb _ hr =>
    decRound_known hs (List.mem_range.1 (List.mem_reverse.1 hr)) hb

theorem storeBlock_fault_of_known {b : Block MByte} (hb : b.Known) : (s.storeBlock b).fault = s.fault := by
  rw [State.storeBlock_fault, hb.1, hb.2]; rfl

/-- While every RAM byte is written no command records a fault. -/
theorem execAt_fault_of_ramWritten (hs : s.RamWritten) (h : execAt D i s = .next t) : t.fault = s.fault := by
  cases i with
  | nop | pwdclr | hash | ksched => cases h; rfl
  | expand => cases h; exact expandSbox_fault_of_ramWritten hs
  | setup =>
    cases h
    exact expandSbox_fault_of_ramWritten (scheduleSbox_ramWritten (hs.of_mem_eq (hashKey_mem D s)))
  | enc => cases h; exact storeBlock_fault_of_known (encNetwork_known hs)
  | dec => cases h; exact storeBlock_fault_of_known (decNetwork_known hs)
  | roundf r =>
    cases h
    show (s.record _).fault = s.fault
    rw [F_known hs r.isLt (Half.unknown_map_some _)]
    rfl

/-- No command unwrites a RAM byte. -/
theorem execAt_ramWritten (hs : s.RamWritten) (h : execAt D i s = .next t) : t.RamWritten := by
  cases i with
  | nop | pwdclr | hash => cases h; exact hs
  | ksched => cases h; exact scheduleSbox_ramWritten hs
  | expand => cases h; exact expandSbox_ramWritten hs
  | setup => cases h; exact expandSbox_ramWritten (scheduleSbox_ramWritten (hs.of_mem_eq (hashKey_mem D s)))
  | enc | dec | roundf => cases h; exact hs.of_mem_eq (State.record_mem ..)

/-- The four bytes of a window word (R49). -/
def windowBytes (m : Memory) (x : Nat) : Half MByte := ⟨m.read x, m.read (x + 1), m.read (x + 2), m.read (x + 3)⟩

theorem readWindow_state (s : State) (x : Nat) : (s.readWindow x).2 = s.record (windowBytes s.mem x).unknown := rfl

theorem windowBytes_unknown_of_none {m : Memory} {x k : Nat} (hk : k < 4) (h : m.read (x + k) = none) :
    (windowBytes m x).unknown = true := by
  have hk : k = 0 ∨ k = 1 ∨ k = 2 ∨ k = 3 := by omega
  rcases hk with rfl | rfl | rfl | rfl <;> simp_all [Half.unknown, windowBytes]

theorem windowBytes_known {m : Memory} {x : Nat} (h : ∀ k, k < 4 → (m.read (x + k)).isSome = true) :
    (windowBytes m x).unknown = false := by
  have isNone (k : Nat) (hk : k < 4) : (m.read (x + k)).isNone = false := by
    rw [← Option.not_isSome, h k hk]; rfl
  simp [Half.unknown, windowBytes, isNone 1, isNone 2, isNone 3, show (m.read x).isNone = false from isNone 0 (by decide)]

/-- A window word with its four bytes written is read without a record or a draw. -/
theorem readWindow_state_of_written {x : Nat} (h : ∀ k, k < 4 → (s.mem.read (x + k)).isSome = true) :
    (s.readWindow x).2 = s := by
  rw [readWindow_state, windowBytes_known h, State.record_false]

/-- While every RAM byte is written no read records a fault. -/
theorem ReadEffect.fault_of_ramWritten {x : Word × State} (h : ReadEffect s a x) (hs : s.RamWritten) :
    x.2.fault = s.fault := by
  cases h with
  | word | busy => rfl
  | window hw => rw [readWindow_state_of_written fun k hk => hs _ (isRamOffset_of_windowWord hw k hk)]

/-- No write unwrites a RAM byte. -/
theorem WriteEffect.ramWritten (h : WriteEffect s a v t) (hs : s.RamWritten) : t.RamWritten := by
  cases h with
  | refused c => exact hs.of_mem_eq (s.raise_mem c)
  | status | inten | accepted | absorbed | key | data0 | data1 => exact hs.of_mem_eq rfl
  | window =>
    intro x hx
    rw [Memory.read_writeWord]
    split
    · rfl
    · exact hs x hx

/-- While every RAM byte is written no step records a fault. -/
theorem StepEffect.fault_of_ramWritten (h : StepEffect D s t) (hs : s.RamWritten) : t.fault = s.fault := by
  cases h with
  | idle | reset => rfl
  | completion i x _ hx => rw [x.complete_fault, execAt_fault_of_ramWritten hs.dropEvent hx]; rfl
  | read a => exact (memRead_effect _ a).fault_of_ramWritten hs.dropEvent
  | write a v _ _ hw => exact hw.fault

/-- Only a reset unwrites a RAM byte. -/
theorem StepEffect.ramWritten (h : StepEffect D s t) (hs : s.RamWritten) (hr : ¬ s.Resets) : t.RamWritten := by
  cases h with
  | idle => exact hs.dropEvent
  | completion i x _ hx => exact (execAt_ramWritten hs.dropEvent hx).of_mem_eq x.complete_mem
  | read a => rw [hostStep, memRead_state]; exact hs.of_mem_eq rfl
  | write a v _ _ hw => exact hw.ramWritten hs.dropEvent
  | reset h => exact absurd h hr

/-- Settles O11. -/
theorem writtenRamRecordsNoFault : Obligations.WrittenRamRecordsNoFault :=
  fun _ _ _ hs h => ⟨(stepAt_effect h).fault_of_ramWritten hs, (stepAt_effect h).ramWritten hs⟩

/-! ### A window read -/

/-- A window word as the port reads it while BUSY = 0 (R57). -/
theorem memRead_of_windowWord (hb : s.busy = false) (hw : windowWord a.toNat) :
    memRead a s = s.readWindow a.toNat := by
  have h : byteRegister a.toNat := ⟨hw.1, .inr hw.2⟩
  have idle (f : State → Word × State) : s.readIfIdle f = f s := by simp [State.readIfIdle, hb]
  rcases Reg.ofOffset_byteRegister h with ⟨k, ha, hr⟩ | ⟨ha, hr⟩ | ⟨ha, hr⟩ | ⟨w, ha, hr⟩ | ⟨w, ha, hr⟩
  · omega
  · omega
  · omega
  · rw [memRead_of_reg hr, readReg, idle, show sboxWord w = a.toNat from ha.symm]
  · rw [memRead_of_reg hr, readReg, idle, show rsboxWord w = a.toNat from ha.symm]

end

/-- Settles O27: the record follows the four bytes of the word. -/
theorem windowReadRecordsUnwrittenBytes : Obligations.WindowReadRecordsUnwrittenBytes := by
  intro D s a hb h4 ha
  have hr : memRead a s = s.readWindow a.toNat := memRead_of_windowWord hb ⟨h4, ha⟩
  refine ⟨_, feed_read .., ?_, fun k hk hn => ?_, fun hk => ?_⟩
  · exact congrArg (fun t : State => { t with reply := some (memRead a s).1 }) (memRead_state a s)
  · rw [hr, readWindow_state, windowBytes_unknown_of_none hk hn]; rfl
  · rw [hr, readWindow_state_of_written hk]

end Sys2Proof.Machine
end

section
/-! SUPPORT. The rules of the error fields (10_state.md R30, 60_exceptions.md R133). -/

namespace Sys2Proof.Machine

section
variable {D : Digest} {i : Instr} {s t : State} {a : Offset} {v : Word}

/-- What a write does to ERRF and ERRCODE: nothing, a first error, or the clearing by STATUS bit 2. -/
theorem WriteEffect.error (h : WriteEffect s a v t) :
    (t.errf = s.errf ∧ t.errcode = s.errcode) ∨
    (s.errf = false ∧ t.errf = true ∧ t.errcode ∈ [1, 2, 3, 4]) ∨
    (t.errf = false ∧ t.errcode = 0 ∧ a.toNat = 0x000C ∧ v.getLsbD 2 = true) := by
  cases h with
  | refused c =>
    cases he : s.errf
    · rw [s.raise_of_not_errf c he]; exact .inr (.inl ⟨rfl, rfl, c.code_mem⟩)
    · rw [s.raise_of_errf c he]; exact .inl ⟨he, rfl⟩
  | status ha =>
    rw [State.writeStatus_errf, State.writeStatus_errcode]
    split
    · next hv => exact .inr (.inr ⟨rfl, rfl, ha, hv⟩)
    · exact .inl ⟨rfl, rfl⟩
  | inten | accepted | absorbed | key | data0 | data1 | window => exact .inl ⟨rfl, rfl⟩

/-- A completion leaves ERRF and ERRCODE as they are (R80). -/
theorem execAt_error (h : execAt D i s = .next t) : t.errf = s.errf ∧ t.errcode = s.errcode := by
  rw [execAt_frame h]; exact ⟨rfl, rfl⟩

theorem memRead_error (a : Offset) (s : State) :
    (memRead a s).2.errf = s.errf ∧ (memRead a s).2.errcode = s.errcode := by
  rw [memRead_state]; exact ⟨rfl, rfl⟩

end

/-- Settles O34. -/
theorem errorFieldsChangeOnlyByTheirRules : Obligations.ErrorFieldsChangeOnlyByTheirRules := by
  intro D s t h
  cases stepAt_effect h with
  | idle => exact .inl ⟨rfl, rfl⟩
  | completion i x _ hx => exact .inl (execAt_error hx :)
  | read a => exact .inl (memRead_error a _)
  | write a v _ hs hw =>
    rcases hw.error with he | ⟨h0, h1, hc⟩ | ⟨h0, hc, ha, hv⟩
    · exact .inl he
    · exact .inr (.inl ⟨h0, h1, hc, a.toNat, v, hs⟩)
    · exact .inr (.inr ⟨h0, hc, .inl ⟨v, ha ▸ hs, hv⟩⟩)
  | reset hr => exact .inr (.inr ⟨rfl, rfl, .inr hr⟩)

end Sys2Proof.Machine
end

section
/-! SUPPORT. No host transaction tells two passwords of one length apart (10_state.md R34). -/

namespace Sys2Proof.Machine

/-- `u` is `s` with another password of the same length. -/
def OtherPassword (s u : State) : Prop := ∃ p, u = { s with pwd := p } ∧ p.length = s.pwd.length

section
variable {s u : State}

theorem OtherPassword.errf_eq (h : OtherPassword s u) : u.errf = s.errf := by obtain ⟨p, rfl, -⟩ := h; rfl

theorem OtherPassword.busy_eq (h : OtherPassword s u) : u.busy = s.busy := by obtain ⟨p, rfl, -⟩ := h; rfl

theorem OtherPassword.length_eq (h : OtherPassword s u) : u.pwd.length = s.pwd.length := by
  obtain ⟨p, rfl, hp⟩ := h; exact hp

theorem OtherPassword.raise (h : OtherPassword s u) (c : ErrorCode) : OtherPassword (s.raise c) (u.raise c) := by
  cases he : s.errf
  · rw [s.raise_of_not_errf c he, u.raise_of_not_errf c (h.errf_eq.trans he)]
    obtain ⟨p, rfl, hp⟩ := h
    exact ⟨p, rfl, hp⟩
  · rw [s.raise_of_errf c he, u.raise_of_errf c (h.errf_eq.trans he)]
    exact h

theorem OtherPassword.ifIdle (h : OtherPassword s u) {f : State → State} (hf : OtherPassword (f s) (f u)) :
    OtherPassword (s.ifIdle f) (u.ifIdle f) := by
  cases hb : s.busy
  · rw [s.ifIdle_of_idle f hb, u.ifIdle_of_idle f (h.busy_eq.trans hb)]; exact hf
  · rw [s.ifIdle_of_busy f hb, u.ifIdle_of_busy f (h.busy_eq.trans hb)]; exact h.raise .busy

theorem OtherPassword.submit (h : OtherPassword s u) (v : Word) : OtherPassword (s.submit v) (u.submit v) := by
  unfold State.submit
  cases decode v with
  | error => exact h.raise .illegalCmd
  | ok i => obtain ⟨p, rfl, hp⟩ := h; exact ⟨p, rfl, hp⟩

theorem OtherPassword.absorb (h : OtherPassword s u) (b : Byte) : OtherPassword (s.absorb b) (u.absorb b) := by
  by_cases hl : s.pwd.length = Config.pwdMax
  · rw [s.absorb_of_full b hl, u.absorb_of_full b (h.length_eq.trans hl)]; exact h.raise .pwdOverflow
  · rw [s.absorb_of_room b hl, u.absorb_of_room b (h.length_eq ▸ hl)]
    obtain ⟨p, rfl, hp⟩ := h
    exact ⟨p ++ [b], rfl, by simp [hp]⟩

/-- A write leaves two states that differ in PWD's bytes only. -/
theorem OtherPassword.writeReg (h : OtherPassword s u) (r : Reg) (v : Word) :
    OtherPassword (Machine.writeReg r v s) (Machine.writeReg r v u) := by
  cases r <;> simp only [Machine.writeReg]
  case id | version | pwdLen => exact h.raise .access
  case status | inten => obtain ⟨p, rfl, hp⟩ := h; exact ⟨p, rfl, hp⟩
  case cmd => exact h.ifIdle (h.submit v)
  case pwdData => exact h.ifIdle (h.absorb _)
  all_goals
    refine h.ifIdle ?_
    obtain ⟨p, rfl, hp⟩ := h
    exact ⟨p, rfl, hp⟩

theorem OtherPassword.memWrite (h : OtherPassword s u) (a : Offset) (v : Word) :
    OtherPassword (memWrite a v s) (memWrite a v u) := by
  cases hr : Reg.ofOffset a with
  | none => rw [memWrite_of_none hr, memWrite_of_none hr]; exact h.raise .access
  | some r => rw [memWrite_of_reg hr, memWrite_of_reg hr]; exact h.writeReg r v

/-- Two reads that answer the same word and leave states that differ in PWD's bytes only. -/
def SameRead (x y : Word × State) : Prop := y.1 = x.1 ∧ OtherPassword x.2 y.2

theorem OtherPassword.readWindow (h : OtherPassword s u) (x : Nat) : SameRead (s.readWindow x) (u.readWindow x) := by
  obtain ⟨p, rfl, hp⟩ := h
  refine ⟨rfl, p, ?_, by rw [readWindow_state, State.record_pwd]; exact hp⟩
  rw [readWindow_state, readWindow_state]
  cases (windowBytes s.mem x).unknown <;> rfl

theorem OtherPassword.readIfIdle (h : OtherPassword s u) {f : State → Word × State} (hf : SameRead (f s) (f u)) :
    SameRead (s.readIfIdle f) (u.readIfIdle f) := by
  unfold State.readIfIdle
  rw [h.busy_eq]
  split
  · obtain ⟨p, rfl, hp⟩ := h; exact ⟨rfl, p, rfl, hp⟩
  · exact hf

/-- A read sees PWD's length only (R36). -/
theorem OtherPassword.readReg (h : OtherPassword s u) (r : Reg) :
    SameRead (Machine.readReg r s) (Machine.readReg r u) := by
  cases r <;> simp only [Machine.readReg]
  case id | version | cmd | pwdData => exact ⟨rfl, h⟩
  case status | inten => obtain ⟨p, rfl, hp⟩ := h; exact ⟨rfl, p, rfl, hp⟩
  case pwdLen => exact h.readIfIdle ⟨congrArg (BitVec.ofNat 32) h.length_eq, h⟩
  case sbox | rsbox => exact h.readIfIdle (h.readWindow _)
  case key | data0 | data1 =>
    refine h.readIfIdle ?_
    obtain ⟨p, rfl, hp⟩ := h
    exact ⟨rfl, p, rfl, hp⟩

theorem OtherPassword.memRead (h : OtherPassword s u) (a : Offset) : SameRead (memRead a s) (memRead a u) := by
  cases hr : Reg.ofOffset a with
  | none => rw [memRead_of_none hr, memRead_of_none hr]; exact ⟨rfl, h⟩
  | some r => rw [memRead_of_reg hr, memRead_of_reg hr]; exact h.readReg r

end

/-- Settles O53: a host transaction sees PWD's length only, so both runs answer the same word. -/
theorem passwordBytesCannotBeReadBack : Obligations.PasswordBytesCannotBeReadBack := by
  intro D s pw x hpw
  have h : OtherPassword s { s with pwd := pw } := ⟨pw, rfl, hpw⟩
  cases x with
  | read a =>
    obtain ⟨hw, p, hs, hp⟩ := h.memRead a
    exact ⟨_, p, _, feed_read .., by rw [feed_read, hw, hs], hp, fun _ => rfl⟩
  | write a v =>
    obtain ⟨p, hs, hp⟩ := h.memWrite a v
    exact ⟨_, p, _, feed_write .., by rw [feed_write, hs], hp, fun _ => rfl⟩

end Sys2Proof.Machine
end

section
/-! SUPPORT. The registers that can be accessed at any time: ID, VERSION, STATUS and INTEN, the interrupt output, and the values
after reset (10_state.md R24 to R32, R44). -/

namespace Sys2Proof.Machine

@[simp] theorem flagWord_getElem (b : Bool) (n : Nat) (hn : n < 32) : (flagWord b)[n] = (decide (n = 0) && b) := by
  cases b <;> simp [flagWord]

/-- STATUS bit by bit: ERRCODE above the flags (R27). -/
theorem State.statusWord_getLsbD (s : State) (n : Nat) (hn : n < 32) :
    s.statusWord.getLsbD n = (decide (4 ≤ n) && s.errcode.getLsbD (n - 4)
      || decide (n = 2) && s.errf || decide (n = 1) && s.done || decide (n = 0) && s.busy) := by
  by_cases h4 : 4 ≤ n
  · simp [State.statusWord, hn, h4, show ¬ n < 4 by omega, show ¬ n < 2 by omega, show ¬ n < 1 by omega,
      show n - 2 ≠ 0 by omega, show n - 1 ≠ 0 by omega, show n ≠ 2 by omega, show n ≠ 1 by omega, show n ≠ 0 by omega]
  · have hn : n = 0 ∨ n = 1 ∨ n = 2 ∨ n = 3 := by omega
    rcases hn with rfl | rfl | rfl | rfl <;> simp [State.statusWord]

/-- INTEN bit by bit (R31). -/
theorem State.intenWord_getLsbD (s : State) (n : Nat) (hn : n < 32) :
    s.intenWord.getLsbD n = (decide (n = 1) && s.errIe || decide (n = 0) && s.doneIe) := by
  match n with
  | 0 | 1 => simp [State.intenWord]
  | n + 2 => simp [State.intenWord, hn]

/-- Settles O20. -/
theorem readOnlyAndWriteOnlyRegisters : Obligations.ReadOnlyAndWriteOnlyRegisters := by
  intro D s a v
  refine ⟨fun h => ?_, fun h => ?_, fun h => ?_, fun h => ?_⟩
  · rw [feed_read, memRead_of_reg (r := .id) (Reg.ofOffset_of_toNat h)]; rfl
  · rw [feed_read, memRead_of_reg (r := .version) (Reg.ofOffset_of_toNat h)]; rfl
  · rw [feed_read]
    rcases h with h | h
    · rw [memRead_of_reg (r := .cmd) (Reg.ofOffset_of_toNat h)]; rfl
    · rw [memRead_of_reg (r := .pwdData) (Reg.ofOffset_of_toNat h)]; rfl
  · rw [feed_write]
    rcases h with h | h | h
    · rw [memWrite_of_reg (r := .id) (Reg.ofOffset_of_toNat h)]; rfl
    · rw [memWrite_of_reg (r := .version) (Reg.ofOffset_of_toNat h)]; rfl
    · rw [memWrite_of_reg (r := .pwdLen) (Reg.ofOffset_of_toNat h)]; rfl

/-- Settles O21. -/
theorem statusRegister : Obligations.StatusRegister := by
  intro D s a v h
  have hr : Reg.ofOffset a = some .status := Reg.ofOffset_of_toNat h
  refine ⟨⟨s.statusWord, by rw [feed_read, memRead_of_reg hr]; rfl, ?_, ?_, ?_, ?_, ?_, ?_⟩,
    by rw [feed_write, memWrite_of_reg hr]; rfl⟩
  · rw [s.statusWord_getLsbD 0 (by decide)]; simp
  · rw [s.statusWord_getLsbD 1 (by decide)]; simp
  · rw [s.statusWord_getLsbD 2 (by decide)]; simp
  · rw [s.statusWord_getLsbD 3 (by decide)]; simp
  · refine BitVec.eq_of_getLsbD_eq fun n hn => ?_
    rw [BitVec.getLsbD_extractLsb', s.statusWord_getLsbD _ (by omega)]
    simp [hn, show 4 + n ≠ 1 by omega, show 4 + n ≠ 2 by omega]
  · refine BitVec.eq_of_getLsbD_eq fun n hn => ?_
    rw [BitVec.getLsbD_extractLsb', s.statusWord_getLsbD _ (by omega), BitVec.getLsbD_of_ge s.errcode _ (by omega)]
    simp [show 8 + n ≠ 1 by omega, show 8 + n ≠ 2 by omega]

/-- Settles O22. -/
theorem intenAndTheInterrupt : Obligations.IntenAndTheInterrupt := by
  intro D s a v h
  have hr : Reg.ofOffset a = some .inten := Reg.ofOffset_of_toNat h
  refine ⟨⟨s.intenWord, by rw [feed_read, memRead_of_reg hr]; rfl, ?_, ?_, ?_⟩,
    s.writeInten v, by rw [feed_write, memWrite_of_reg hr]; rfl, rfl, rfl⟩
  · rw [s.intenWord_getLsbD 0 (by decide)]; simp
  · rw [s.intenWord_getLsbD 1 (by decide)]; simp
  · refine BitVec.eq_of_getLsbD_eq fun n hn => ?_
    rw [BitVec.getLsbD_extractLsb', s.intenWord_getLsbD _ (by omega)]
    simp [show 2 + n ≠ 1 by omega]

/-- KEY reads 0 after reset (R44). -/
theorem keyWord_reset (k : Fin 8) : keyWord State.reset.key k = 0 := by
  simp only [keyWord, State.reset, Vector.getElem_replicate]; rfl

/-- Settles O4. -/
theorem resetStateIsTheTableOfResetValues : Obligations.ResetStateIsTheTableOfResetValues := by
  refine ⟨rfl, rfl, rfl, rfl, fun k hk => ?_, rfl, fun _ _ => rfl, fun _ _ => rfl, rfl, fun a h => ?_, fun a h => ?_,
    fun a h => ?_⟩
  · exact Vector.getElem_replicate hk
  · rw [memRead_of_reg (r := .id) (Reg.ofOffset_of_toNat h)]; rfl
  · rw [memRead_of_reg (r := .version) (Reg.ofOffset_of_toNat h)]; rfl
  · rcases h with h | ⟨h1, h2, h4⟩
    · rw [memRead_of_reg (r := .pwdLen) (Reg.ofOffset_of_toNat h)]; rfl
    · rcases Reg.ofOffset_byteRegister ⟨h4, .inl ⟨h1, h2⟩⟩ with ⟨k, -, hr⟩ | ⟨-, hr⟩ | ⟨-, hr⟩ | ⟨w, ha, -⟩ | ⟨w, ha, -⟩
      · rw [memRead_of_reg hr]; exact keyWord_reset k
      · rw [memRead_of_reg hr]; rfl
      · rw [memRead_of_reg hr]; rfl
      · omega
      · omega

end Sys2Proof.Machine
end

section
/-! SUPPORT. The port as a memory (20_memory.md R48, R49, R52 to R59): bad offsets, protected registers, the idle reads and writes
of PWD_LEN, KEY, DATA and the windows, and the operands of a running command. -/

namespace Sys2Proof.Machine

section
variable {s t : State} {a : Offset} {v : Word}

theorem State.readIfIdle_of_busy (f : State → Word × State) (hb : s.busy = true) :
    s.readIfIdle f = (Config.freeWord s.draws, { s with draws := s.draws + 1 }) := by simp [State.readIfIdle, hb]

theorem State.readIfIdle_of_idle (f : State → Word × State) (hb : s.busy = false) : s.readIfIdle f = f s := by
  simp [State.readIfIdle, hb]

/-! ### Protected registers -/

/-- Every protected register that can be written is written through the check of BUSY (R55). -/
theorem memWrite_of_protectedForWrite (h : protectedForWrite a.toNat) (v : Word) :
    ∃ f, ∀ s, memWrite a v s = s.ifIdle f := by
  rcases h with h | h | h
  · exact ⟨_, memWrite_of_reg (r := .cmd) (Reg.ofOffset_of_toNat h) v⟩
  · exact ⟨_, memWrite_of_reg (r := .pwdData) (Reg.ofOffset_of_toNat h) v⟩
  · rcases Reg.ofOffset_byteRegister h with ⟨k, -, hr⟩ | ⟨-, hr⟩ | ⟨-, hr⟩ | ⟨w, -, hr⟩ | ⟨w, -, hr⟩ <;>
      exact ⟨_, memWrite_of_reg hr v⟩

/-- Every register that is protected for reads is read through the check of BUSY (R56). -/
theorem memRead_of_protectedForRead (h : protectedForRead a.toNat) : ∃ f, ∀ s, memRead a s = s.readIfIdle f := by
  rcases h with h | h
  · exact ⟨_, memRead_of_reg (r := .pwdLen) (Reg.ofOffset_of_toNat h)⟩
  · rcases Reg.ofOffset_byteRegister h with ⟨k, -, hr⟩ | ⟨-, hr⟩ | ⟨-, hr⟩ | ⟨w, -, hr⟩ | ⟨w, -, hr⟩ <;>
      exact ⟨_, memRead_of_reg hr⟩

/-! ### Idle reads and writes -/

/-- A word of KEY, DATA, SBOX or RSBOX is KEYk, DATA0, DATA1 or a window word. -/
theorem byteRegister_cases {x : Nat} (h : byteRegister x) :
    (∃ k : Fin 8, x = 0x0020 + 4 * k.val) ∨ x = 0x0040 ∨ x = 0x0044 ∨ windowWord x := by
  obtain ⟨h4, hx | hx⟩ := h
  · by_cases hk : x < 0x0040
    · exact .inl ⟨⟨(x - 0x0020) / 4, by omega⟩, by simp only; omega⟩
    · omega
  · exact .inr (.inr (.inr ⟨h4, hx⟩))

/-- The offset of KEYk (R47). -/
theorem Reg.ofOffset_key {k : Fin 8} (ha : a.toNat = 0x0020 + 4 * k.val) : Reg.ofOffset a = some (.key k) := by
  have hk := k.isLt
  have hr : byteRegister a.toNat := ⟨by omega, .inl (by omega)⟩
  rcases Reg.ofOffset_byteRegister hr with ⟨l, hl, hr⟩ | ⟨h, -⟩ | ⟨h, -⟩ | ⟨w, h, -⟩ | ⟨w, h, -⟩
  · rw [hr, show l = k from Fin.ext (by omega)]
  all_goals omega

theorem memRead_pwdLen (hb : s.busy = false) (ha : a.toNat = 0x0018) :
    memRead a s = (BitVec.ofNat 32 s.pwd.length, s) := by
  rw [memRead_of_reg (r := .pwdLen) (Reg.ofOffset_of_toNat ha), readReg, State.readIfIdle_of_idle _ hb]

theorem memRead_key (hb : s.busy = false) {k : Fin 8} (ha : a.toNat = 0x0020 + 4 * k.val) :
    memRead a s = (keyWord s.key k, s) := by
  rw [memRead_of_reg (Reg.ofOffset_key ha), readReg, State.readIfIdle_of_idle _ hb]

theorem memRead_data0 (hb : s.busy = false) (ha : a.toNat = 0x0040) : memRead a s = (s.data.left.word, s) := by
  rw [memRead_of_reg (r := .data0) (Reg.ofOffset_of_toNat ha), readReg, State.readIfIdle_of_idle _ hb]

theorem memRead_data1 (hb : s.busy = false) (ha : a.toNat = 0x0044) : memRead a s = (s.data.right.word, s) := by
  rw [memRead_of_reg (r := .data1) (Reg.ofOffset_of_toNat ha), readReg, State.readIfIdle_of_idle _ hb]

theorem memWrite_key (hb : s.busy = false) {k : Fin 8} (ha : a.toNat = 0x0020 + 4 * k.val) :
    memWrite a v s = { s with key := setKeyWord s.key k v } := by
  rw [memWrite_of_reg (Reg.ofOffset_key ha), writeReg, State.ifIdle_of_idle _ _ hb]

theorem memWrite_data0 (hb : s.busy = false) (ha : a.toNat = 0x0040) :
    memWrite a v s = { s with data := ⟨.ofWord v, s.data.right⟩ } := by
  rw [memWrite_of_reg (r := .data0) (Reg.ofOffset_of_toNat ha), writeReg, State.ifIdle_of_idle _ _ hb]

theorem memWrite_data1 (hb : s.busy = false) (ha : a.toNat = 0x0044) :
    memWrite a v s = { s with data := ⟨s.data.left, .ofWord v⟩ } := by
  rw [memWrite_of_reg (r := .data1) (Reg.ofOffset_of_toNat ha), writeReg, State.ifIdle_of_idle _ _ hb]

/-- A window word is written at its own offset (R49). -/
theorem memWrite_of_windowWord (hb : s.busy = false) (hw : windowWord a.toNat) :
    memWrite a v s = { s with mem := s.mem.writeWord a.toNat v } := by
  have h : byteRegister a.toNat := ⟨hw.1, .inr hw.2⟩
  rcases Reg.ofOffset_byteRegister h with ⟨k, ha, hr⟩ | ⟨ha, hr⟩ | ⟨ha, hr⟩ | ⟨w, ha, hr⟩ | ⟨w, ha, hr⟩
  · omega
  · omega
  · omega
  · rw [memWrite_of_reg hr, writeReg, State.ifIdle_of_idle _ _ hb, show sboxWord w = a.toNat from ha.symm]
  · rw [memWrite_of_reg hr, writeReg, State.ifIdle_of_idle _ _ hb, show rsboxWord w = a.toNat from ha.symm]

/-! ### The bytes of a window word -/

/-- Lane `k` of a window word is the byte at `k` past the word's address, free where it is unwritten (R49, R40). -/
theorem byteOf_readWindow (s : State) (x : Nat) {k : Nat} (hk : k < 4) :
    byteOf k (s.readWindow x).1 = s.lane k (s.mem.read (x + k)) := by
  obtain ⟨h0, h1, h2, h3⟩ := byteOf_pack32 (s.lane 0 (s.mem.read x)) (s.lane 1 (s.mem.read (x + 1)))
    (s.lane 2 (s.mem.read (x + 2))) (s.lane 3 (s.mem.read (x + 3)))
  have hk : k = 0 ∨ k = 1 ∨ k = 2 ∨ k = 3 := by omega
  rcases hk with rfl | rfl | rfl | rfl
  · exact h0
  · exact h1
  · exact h2
  · exact h3

/-- A written byte of a window stands in its lane of the word read while BUSY = 0 (R49). -/
theorem feed_read_windowByte (D : Digest) (hb : s.busy = false) (hw : windowWord a.toNat) {k : Nat} (hk : k < 4) {b : Byte}
    (h : s.mem.read (a.toNat + k) = some b) :
    ∃ t w, s.feed D (.host (.read a)) = .next t ∧ t.reply = some w ∧ byteOf k w = b := by
  refine ⟨_, _, feed_read .., rfl, ?_⟩
  rw [memRead_of_windowWord hb hw, byteOf_readWindow s _ hk, h, State.lane_some]

/-- A window word whose four bytes are written reads as these bytes, with no record and no draw. -/
theorem readWindow_of_windowBytes {x : Nat} {h : Half Byte} (e : windowBytes s.mem x = h.map some) :
    s.readWindow x = (h.word, s) := by
  show ((s.laneHalf 0 (windowBytes s.mem x)).word, s.record (windowBytes s.mem x).unknown) = _
  rw [e, State.laneHalf_map_some, Half.unknown_map_some, State.record_false]

theorem windowBytes_writeWord (m : Memory) (x : Nat) (v : Word) :
    windowBytes (m.writeWord x v) x = (Half.ofWord v).map some := by
  simp [windowBytes, Memory.read_writeWord, Half.ofWord, Half.map]

/-- The word written to KEY, DATA or a window while BUSY = 0 is the word read back, and the read draws nothing (R57, R58). -/
theorem memRead_memWrite_same (hb : s.busy = false) (h : byteRegister a.toNat) :
    memRead a (memWrite a v s) = (v, memWrite a v s) := by
  rcases byteRegister_cases h with ⟨k, ha⟩ | ha | ha | hw
  · rw [memWrite_key hb ha, memRead_key (by exact hb) ha, keyWord_setKeyWord_same]
  · rw [memWrite_data0 hb ha, memRead_data0 (by exact hb) ha, Half.word_ofWord]
  · rw [memWrite_data1 hb ha, memRead_data1 (by exact hb) ha, Half.word_ofWord]
  · rw [memWrite_of_windowWord hb hw, memRead_of_windowWord (by exact hb) hw,
      readWindow_of_windowBytes (windowBytes_writeWord ..), Half.word_ofWord]

/-! ### The operands of a running command -/

/-- The command in flight and what it computes from are the same (R65). -/
structure State.SameOperands (s t : State) : Prop where
  busy : t.busy = s.busy
  cur : t.cur = s.cur
  pwd : t.pwd = s.pwd
  key : t.key = s.key
  data : t.data = s.data
  mem : t.mem = s.mem

theorem State.SameOperands.trans {u : State} (h : s.SameOperands t) (h' : t.SameOperands u) : s.SameOperands u :=
  ⟨h'.busy.trans h.busy, h'.cur.trans h.cur, h'.pwd.trans h.pwd, h'.key.trans h.key, h'.data.trans h.data, h'.mem.trans h.mem⟩

/-- While BUSY = 1 a write is refused, or is one of STATUS or INTEN (R55). -/
theorem WriteEffect.sameOperands (h : WriteEffect s a v t) (hb : s.busy = true) : s.SameOperands t := by
  cases h with
  | refused c => exact ⟨s.raise_busy c, s.raise_cur c, s.raise_pwd c, s.raise_key c, s.raise_data c, s.raise_mem c⟩
  | status | inten => exact ⟨rfl, rfl, rfl, rfl, rfl, rfl⟩
  | accepted _ _ hi | absorbed _ hi | key _ _ hi | data0 _ hi | data1 _ hi | window _ hi => cases hb.symm.trans hi

theorem WriteEffect.inputs (h : WriteEffect s a v t) : t.inputs = s.inputs := by
  cases h with
  | refused c => exact s.raise_inputs c
  | status | inten | accepted | absorbed | key | data0 | data1 | window => rfl

theorem hostStep_sameOperands (hb : s.busy = true) (x : Txn) : s.SameOperands (hostStep x s) := by
  cases x with
  | read a => rw [hostStep, memRead_state]; exact ⟨rfl, rfl, rfl, rfl, rfl, rfl⟩
  | write a v => exact (memWrite_effect s a v).sameOperands hb

theorem hostStep_inputs (s : State) (x : Txn) : (hostStep x s).inputs = s.inputs := by
  cases x with
  | read a => rw [hostStep, memRead_state]
  | write a v => exact (memWrite_effect s a v).inputs

theorem coreAt_run_host (D : Digest) (n : Nat) (x : Txn) (es : List Event) (s : State) :
    Host.Core.run (coreAt D) (n + 1) { s with inputs := .host x :: es }
      = Host.Core.run (coreAt D) n (hostStep x { s with inputs := es }) := rfl

/-- A run of host transactions while BUSY = 1 keeps the operands and takes just these transactions off the events to come. -/
theorem sameOperands_of_run {D : Digest} {xs : List Txn} {rest : List Event} (hb : s.busy = true)
    (h : Host.Core.run (coreAt D) xs.length { s with inputs := xs.map Event.host ++ rest } = .next t) :
    s.SameOperands t ∧ t.inputs = rest := by
  induction xs generalizing s with
  | nil => cases h; exact ⟨⟨rfl, rfl, rfl, rfl, rfl, rfl⟩, rfl⟩
  | cons x xs ih =>
    let s₀ : State := { s with inputs := xs.map Event.host ++ rest }
    have hx : s.SameOperands (hostStep x s₀) := { hostStep_sameOperands (s := s₀) hb x with }
    have hrun : Host.Core.run (coreAt D) xs.length { hostStep x s₀ with inputs := xs.map Event.host ++ rest } = .next t := by
      rw [show xs.map Event.host ++ rest = (hostStep x s₀).inputs from (hostStep_inputs s₀ x).symm]
      exact h
    obtain ⟨ht, hi⟩ := ih (hx.busy.trans hb) hrun
    exact ⟨hx.trans ht, hi⟩

end

/-! ### The statements -/

/-- Settles O17, by induction on the transactions. -/
theorem operandsAreStableWhileBusy : Obligations.OperandsAreStableWhileBusy := by
  intro D s t xs rest hb h
  obtain ⟨ht, hi⟩ := sameOperands_of_run hb h
  exact ⟨ht.busy.trans hb, ht.cur, ht.pwd, ht.key, ht.data, ht.mem, hi⟩

/-- Settles O25. -/
theorem idleReadsOfTheRegisters : Obligations.IdleReadsOfTheRegisters := by
  intro D s a hb
  refine ⟨fun ha hl => ?_, fun k hk ha => ?_, fun ha => ?_, fun ha => ?_⟩
  · exact ⟨_, by rw [feed_read, memRead_pwdLen hb ha], by rw [BitVec.toNat_ofNat, Nat.mod_eq_of_lt hl]⟩
  · exact ⟨_, by rw [feed_read, memRead_key (k := ⟨k, hk⟩) hb ha]; rfl, byteOf_pack32 ..⟩
  · rw [feed_read, memRead_data0 hb ha]
  · rw [feed_read, memRead_data1 hb ha]

/-- Settles O26: byte i is `i mod 4` past the address of word `i div 4`. -/
theorem windowLayout : Obligations.WindowLayout := by
  refine ⟨fun D s a i b hb hi ha h => ?_, fun D s a r i b hb hr hi ha h => ?_⟩
  · rw [State.sbox, show Config.sboxBase + i = a.toNat + i % 4 by rw [Config.sboxBase]; omega] at h
    exact feed_read_windowByte D hb ⟨by omega, .inl (by omega)⟩ (Nat.mod_lt i (by decide)) h
  · rw [State.rsbox, State.rsboxFlat,
      show Config.rsboxBase + (256 * r + i) = a.toNat + i % 4 by rw [Config.rsboxBase]; omega] at h
    exact feed_read_windowByte D hb ⟨by omega, .inr (by omega)⟩ (Nat.mod_lt i (by decide)) h

/-- Settles O28. -/
theorem idleWritesStoreTheirFourBytes : Obligations.IdleWritesStoreTheirFourBytes := by
  intro D s a v hb
  refine ⟨fun k hk ha => ?_, fun ha => ?_, fun ha => ?_, fun h4 ha => ?_⟩
  · exact ⟨{ s with key := setKeyWord s.key ⟨k, hk⟩ v }, by rw [feed_write, memWrite_key (k := ⟨k, hk⟩) hb ha], rfl,
      setKeyWord_getElem s.key ⟨k, hk⟩ v⟩
  · rw [feed_write, memWrite_data0 hb ha]; rfl
  · rw [feed_write, memWrite_data1 hb ha]; rfl
  · exact ⟨{ s with mem := s.mem.writeWord a.toNat v }, by rw [feed_write, memWrite_of_windowWord hb ⟨h4, ha⟩], rfl,
      fun x => Memory.read_writeWord _ _ x v⟩

/-- Settles O29. -/
theorem readAfterWriteReturnsTheWord : Obligations.ReadAfterWriteReturnsTheWord :=
  fun _ _ _ _ hb h => ⟨_, feed_write .., by rw [feed_read, memRead_memWrite_same hb h]⟩

/-- Settles O30. -/
theorem readsChangeNoDeviceState : Obligations.ReadsChangeNoDeviceState :=
  fun _ s a => ⟨_, feed_read .., congrArg (fun t : State => { t with reply := some (memRead a s).1 }) (memRead_state a s)⟩

/-- Settles O19: no register stands at such an offset. -/
theorem misalignedAndUnmappedAccesses : Obligations.MisalignedAndUnmappedAccesses := by
  intro D s a v h
  have hr := Reg.ofOffset_bad h
  exact ⟨by rw [feed_read, memRead_of_none hr], by rw [feed_write, memWrite_of_none hr]; rfl⟩

/-- Settles O23: the check of BUSY stands before the register's own effect, CMD's decoder included. -/
theorem busyRefusesProtectedWrites : Obligations.BusyRefusesProtectedWrites := by
  intro D s a v hb h
  obtain ⟨f, hf⟩ := memWrite_of_protectedForWrite h v
  rw [feed_write, hf, State.ifIdle_of_busy _ _ hb]; rfl

/-- Settles O24. -/
theorem busyReadsReturnSomeWord : Obligations.BusyReadsReturnSomeWord := by
  intro D s a hb h
  obtain ⟨f, hf⟩ := memRead_of_protectedForRead h
  exact ⟨_, _, by rw [feed_read, hf, State.readIfIdle_of_busy _ hb]⟩

end Sys2Proof.Machine
end

section
/-! SUPPORT. The decoder and the encoder of command words are inverse (spec/30_encoding.md R68, R71, R72). -/

namespace Sys2Proof

section
variable {f : CmdFields} {v : Word} {i : Instr}

/-- The commands without operand, in the order of their opcodes (R71). -/
def plainCommands : List Instr := [.nop, .pwdclr, .hash, .ksched, .expand, .setup, .enc, .dec]

/-! ### The fields of a command -/

theorem CmdFields.ofWord_eq_iff : CmdFields.ofWord v = f ↔ v = f.toWord :=
  ⟨fun h => h ▸ (CmdFields.toWord_ofWord v).symm, fun h => h ▸ CmdFields.ofWord_toWord f⟩

/-- A command without operand is read exactly where ROUND is 0 (R70). -/
theorem CmdFields.plain_eq_ok_iff {j : Instr} : f.plain j = .ok i ↔ f.round = 0 ∧ j = i := by
  unfold CmdFields.plain
  split <;> simp_all

@[simp] theorem CmdFields.toOption_plain : (f.plain i).toOption = if f.round = 0 then some i else none := by
  unfold CmdFields.plain
  split <;> rfl

theorem decodeFields_fields (i : Instr) : decodeFields i.fields = .ok i := by cases i <;> rfl

/-- The decoder answers a command only on that command's own fields: RSVD is 0, OP is the row of the opcode map, and ROUND is 0
or ROUNDF's operand (R71, R72). -/
theorem eq_fields_of_decodeFields (h : decodeFields f = .ok i) : f = i.fields := by
  obtain ⟨op, round, rsvd⟩ := f
  unfold decodeFields at h
  split at h
  · cases h
  · next hr =>
    obtain rfl : rsvd = 0 := not_not.mp hr
    split at h
    case h_9 hop => cases h; exact congrArg (CmdFields.mk · round 0) (BitVec.eq_of_toNat_eq hop)
    case h_10 => cases h
    all_goals
      next hop =>
      obtain ⟨rfl, rfl⟩ := CmdFields.plain_eq_ok_iff.mp h
      exact congrArg (CmdFields.mk · 0 0) (BitVec.eq_of_toNat_eq hop)

theorem decodeFields_eq_ok_iff : decodeFields f = .ok i ↔ f = i.fields :=
  ⟨eq_fields_of_decodeFields, fun h => h ▸ decodeFields_fields i⟩

/-- The decoder's answer in the order of R72's checks. -/
theorem decodeFields_toOption (f : CmdFields) : (decodeFields f).toOption =
    if f.rsvd ≠ 0 then none
    else if f.op = 8 then some (.roundf f.round)
    else if f.op ≤ 7 ∧ f.round = 0 then plainCommands[f.op.toNat]?
    else none := by
  unfold decodeFields
  split
  · rfl
  · have h8 : f.op = 8 ↔ f.op.toNat = 8 := BitVec.toNat_inj.symm
    have h7 : f.op ≤ 7 ↔ f.op.toNat ≤ 7 := Iff.rfl
    simp only [h8, h7]
    split
    case h_9 hop => rw [if_pos hop]; rfl
    case h_10 hop => rw [if_neg hop, if_neg (by grind)]; rfl
    all_goals next hop => simp [hop, plainCommands]

/-! ### The words of the commands -/

theorem decode_eq_ok_iff : decode v = .ok i ↔ v = encode i :=
  calc decode v = .ok i
    _ ↔ CmdFields.ofWord v = i.fields := decodeFields_eq_ok_iff
    _ ↔ v = encode i := CmdFields.ofWord_eq_iff

@[simp] theorem decode_encode (i : Instr) : decode (encode i) = .ok i := decode_eq_ok_iff.mpr rfl

theorem decode_toOption_isSome_iff : (decode v).toOption.isSome = true ↔ ∃ i, v = encode i := by
  simp only [← decode_eq_ok_iff]
  cases decode v <;> simp [Except.toOption]

theorem encode_plainCommands : ∀ n (h : n < plainCommands.length), encode plainCommands[n] = BitVec.ofNat 32 n := by
  decide

theorem encode_roundf_toNat (r : BitVec 4) : (encode (.roundf r)).toNat = 8 + 16 * r.toNat := by
  revert r; decide

/-- The 24 command words of the opcode map (R71, R72). -/
theorem exists_eq_encode_iff : (∃ i, v = encode i) ↔ v.toNat ≤ 7 ∨ ∃ r, r < 16 ∧ v.toNat = 8 + 16 * r := by
  constructor
  · rintro ⟨i, rfl⟩
    cases i with
    | roundf r => exact .inr ⟨r.toNat, r.isLt, encode_roundf_toNat r⟩
    | _ => exact .inl (by decide)
  · rintro (h | ⟨r, hr, h⟩)
    · exact ⟨plainCommands[v.toNat]'(Nat.lt_succ_of_le h), by
        rw [encode_plainCommands v.toNat (Nat.lt_succ_of_le h), BitVec.ofNat_toNat, BitVec.setWidth_eq]⟩
    · refine ⟨.roundf (BitVec.ofNat 4 r), BitVec.eq_of_toNat_eq ?_⟩
      rw [h, encode_roundf_toNat, BitVec.toNat_ofNat, Nat.mod_eq_of_lt hr]

theorem decodeTableWord_encode (i : Instr) : decodeTableWord 32 (encode i).toNat = some i := by
  rw [decodeTableWord, Nat.mod_eq_of_lt (encode i).isLt, BitVec.ofNat_toNat, BitVec.setWidth_eq, decode_encode]; rfl

end

end Sys2Proof

namespace Sys2Proof.Machine

/-- Settles O2: the decoder inverts the opcode map on fields, and fields and words are in bijection. -/
theorem decodeAndEncodeAgree : Obligations.DecodeAndEncodeAgree := fun _ _ => decode_eq_ok_iff

/-- Settles O1: the checks by the cases of the decoder, the 24 words from O2's equivalence. -/
theorem decodeFollowsTheOpcodeMap : Obligations.DecodeFollowsTheOpcodeMap :=
  fun v => ⟨decodeFields_toOption (.ofWord v), decode_toOption_isSome_iff.trans exists_eq_encode_iff⟩

/-- Settles O3: every row of the opcode map is the word of its command. -/
theorem knownCommandWordsDecode : Obligations.KnownCommandWordsDecode := by
  refine ⟨decodeTableWord_encode .nop, decodeTableWord_encode .pwdclr, decodeTableWord_encode .hash,
    decodeTableWord_encode .ksched, decodeTableWord_encode .expand, decodeTableWord_encode .setup,
    decodeTableWord_encode .enc, decodeTableWord_encode .dec, fun r hr => ?_, by decide, by decide, by decide⟩
  have h := decodeTableWord_encode (.roundf (BitVec.ofNat 4 r))
  rwa [encode_roundf_toNat, BitVec.toNat_ofNat, Nat.mod_eq_of_lt hr] at h

end Sys2Proof.Machine
end

section
/-! SUPPORT. The life of a command: its accept, its completion, and that nothing stops the device
(spec/40_command_control.md R77 to R81, spec/60_exceptions.md R131). -/

namespace Sys2Proof.Machine

section
variable {D : Digest} {i : Instr} {s t : State} {a : Offset}

/-! ### Nothing stops the device -/

theorem execAt_total (D : Digest) (i : Instr) (s : State) : ∃ t, execAt D i s = .next t := by
  cases i <;> exact ⟨_, rfl⟩

theorem engineStep_of_idle (D : Digest) (hc : s.cur = none) : engineStep D s = .next s := by rw [engineStep, hc]

theorem engineStep_of_cur (D : Digest) (hc : s.cur = some i) : engineStep D s = finish (execAt D i s) := by
  rw [engineStep, hc]

theorem engineStep_total (D : Digest) (s : State) : ∃ t, engineStep D s = .next t := by
  cases hc : s.cur with
  | none => exact ⟨s, engineStep_of_idle D hc⟩
  | some i =>
    obtain ⟨t, ht⟩ := execAt_total D i s
    exact ⟨t.complete, by rw [engineStep_of_cur D hc, ht, finish]⟩

theorem stepAt_total (D : Digest) (s : State) : ∃ t, stepAt D s = .next t := by
  unfold stepAt
  split
  · exact engineStep_total D s
  · exact engineStep_total D _
  · exact ⟨_, rfl⟩
  · exact ⟨_, rfl⟩

/-! ### The host is silent -/

/-- A step takes one event off those still to come. -/
theorem StepEffect.inputs (h : StepEffect D s t) : t.inputs = s.inputs.tail := by
  cases h with
  | idle | reset => rfl
  | completion i x _ hx => rw [x.complete_inputs, execAt_frame hx]; rfl
  | read a => exact hostStep_inputs s.dropEvent _
  | write a v _ _ hw => exact hw.inputs

/-- With no event to come it is the engine's turn, and no command is in flight after it (R81). -/
theorem StepEffect.cur_of_silent (h : StepEffect D s t) (hi : s.inputs = []) : t.cur = none := by
  cases h with
  | idle hc => exact hc
  | completion i x => exact x.complete_cur
  | reset => rfl
  | read a hr => obtain ⟨rest, e⟩ := hr; cases hi.symm.trans e
  | write a v _ hw => obtain ⟨o, rest, -, e⟩ := hw; cases hi.symm.trans e

theorem run_succ_of_step {M : Host.Core} {s t : M.State} (h : M.step s = .next t) (n : Nat) : M.run (n + 1) s = M.run n t := by
  rw [Host.Core.run, h]

/-- One step past its last event a run leaves no command in flight, whatever the events are. -/
theorem run_past_inputs (D : Digest) (es : List Event) (s : State) (hi : s.inputs = es) :
    ∃ t, (coreAt D).run (es.length + 1) s = .next t ∧ t.cur = none ∧ t.inputs = [] := by
  induction es generalizing s with
  | nil =>
    obtain ⟨t, ht⟩ := stepAt_total D s
    have effect := stepAt_effect ht
    exact ⟨t, run_succ_of_step (M := coreAt D) ht 0, effect.cur_of_silent hi, by rw [effect.inputs, hi, List.tail_nil]⟩
  | cons e es ih =>
    obtain ⟨u, hu⟩ := stepAt_total D s
    obtain ⟨t, ht, finished⟩ := ih u (by rw [(stepAt_effect hu).inputs, hi, List.tail_cons])
    exact ⟨t, (run_succ_of_step (M := coreAt D) hu _).trans ht, finished⟩

/-! ### Accept -/

theorem submit_encode (s : State) (i : Instr) : s.submit (encode i) = s.accept i := by
  rw [State.submit, decode_encode]

/-- A command's word written to CMD while BUSY = 0 (R77, R78). -/
theorem memWrite_cmd_encode (hb : s.busy = false) (ha : a.toNat = 0x0008) : memWrite a (encode i) s = s.accept i := by
  rw [memWrite_of_reg (r := .cmd) (Reg.ofOffset_of_toNat ha), writeReg, State.ifIdle_of_idle _ _ hb, submit_encode]

theorem feed_engine_accept (D : Digest) (s : State) (i : Instr) :
    (s.accept i).feed D .engine = finish (execAt D i (s.accept i)) :=
  engineStep_of_cur D (s.accept_cur i)

theorem stepAt_withFetchWord_encode (D : Digest) (s : State) (i : Instr) :
    stepAt D (s.withFetchWord 32 (encode i).toNat) = finish (execAt D i (s.accept i)) := by
  rw [State.withFetchWord, decodeTableWord_encode]
  exact feed_engine_accept D s i

end

/-! ### The statements -/

/-- Settles O16, by induction on the events to come. -/
theorem commandInFlightCompletes : Obligations.CommandInFlightCompletes := fun D s => run_past_inputs D s.inputs s rfl

/-- Settles O9. -/
theorem nothingStopsTheDevice : Obligations.NothingStopsTheDevice := by
  refine fun D => ⟨fun i s => ?_, stepAt_total D⟩
  obtain ⟨t, ht⟩ := execAt_total D i s
  exact ⟨t, ht, execAt_error ht⟩

/-- Settles O12. -/
theorem acceptWritesTheLifecycle : Obligations.AcceptWritesTheLifecycle := by
  intro D s a i ha hb
  rw [feed_write, memWrite_cmd_encode hb ha, State.accept]

/-- Settles O13: a stop, which no command has, is passed on by `finish` as the statement says. -/
theorem engineStepCompletesTheCommandInFlight : Obligations.EngineStepCompletesTheCommandInFlight := by
  refine fun D => ⟨fun s i hc => ?_, fun s hc => engineStep_of_idle D hc⟩
  rw [feed_engine, engineStep_of_cur D hc]
  cases execAt D i s <;> rfl

/-- Settles O14: the word is the command's own (O2), and its accept is what both ways to the engine start from. -/
theorem stepRunsTheDecodedCommand : Obligations.StepRunsTheDecodedCommand := by
  intro D s a v i ha hb hd
  obtain rfl := decode_eq_ok_iff.mp hd
  refine ⟨acceptWritesTheLifecycle D s a i ha hb, feed_engine_accept D s i, stepAt_withFetchWord_encode D s i, ?_⟩
  rw [step_eq_stepAt, exec_eq_execAt]
  exact stepAt_withFetchWord_encode Config.digest s i

/-- Settles O35: HASH is the machine's with the device's digest. -/
theorem nopPwdclrAndHash : Obligations.NopPwdclrAndHash :=
  fun s => ⟨rfl, rfl, (exec_eq_execAt .hash s).trans (execAt_hash Config.digest s)⟩

end Sys2Proof.Machine
end

section
/-! SUPPORT. The password register and the permutation unit (spec/40_command_control.md R86, spec/41_key_derivation.md R90 to
R92). -/

namespace Sys2Proof.Machine

/-! ### A write of PWD_DATA -/

/-- PWD_DATA written while BUSY = 0 absorbs byte 0 of the word (R86). -/
theorem memWrite_pwdData {s : State} {a : Offset} (v : Word) (hb : s.busy = false) (ha : a.toNat = 0x0014) :
    memWrite a v s = s.absorb (byteOf 0 v) := by
  rw [memWrite_of_reg (r := .pwdData) (Reg.ofOffset_of_toNat ha), writeReg, State.ifIdle_of_idle _ _ hb]

/-- Settles O31: the two idle cases are those of R86, and BUSY = 1 is O23. -/
theorem pwdDataAbsorbsOneByte : Obligations.PwdDataAbsorbsOneByte := by
  intro D s a v ha
  refine ⟨fun hb hl => ?_, fun hb hl => ?_, fun hb => ?_⟩
  · rw [feed_write, memWrite_pwdData v hb ha, s.absorb_of_room _ hl]; rfl
  · rw [feed_write, memWrite_pwdData v hb ha, s.absorb_of_full _ hl]; rfl
  · exact busyRefusesProtectedWrites D s a v hb (.inr (.inl ha))

/-! ### The swaps of the permutation unit -/

section
variable (key : Vector Byte 32)

/-- The entry that step `i` exchanges with entry `i` (R90). -/
def swapPartner (i : Nat) : Nat := (i + (key[i % 32]'(Nat.mod_lt i (by decide))).toNat) % 256

theorem swapPartner_lt (i : Nat) : swapPartner key i < 256 := Nat.mod_lt _ (by decide)

/-- A step reads the table before it at the exchanged places: both entries are read before either is written (R90). -/
theorem swapStep_eq_comp_swap (t : Nat → Byte) (i : Nat) :
    swapStep key t i = t ∘ Equiv.swap i (swapPartner key i) := by
  funext k
  simp only [Function.comp, Equiv.swap_apply_def, apply_ite t]
  rfl

/-- The table after the first `n` swaps (R90). -/
def swapTable (n : Nat) : Nat → Byte := (List.range n).foldl (swapStep key) fun i => BitVec.ofNat 8 i

theorem swapTable_zero (k : Nat) : swapTable key 0 k = BitVec.ofNat 8 k := rfl

theorem swapTable_succ (n : Nat) : swapTable key (n + 1) = swapStep key (swapTable key n) n := swaps_succ ..

theorem singleSbox_eq_swapTable : singleSbox key = swapTable key 256 := rfl

/-- R90's recurrence determines the first 256 entries of every table: a step reads no entry past them. -/
theorem swapTable_unique {T : Nat → Nat → Byte} (h0 : ∀ k, k < 256 → T 0 k = BitVec.ofNat 8 k)
    (hs : ∀ i, i < 256 → ∀ k, k < 256 → T (i + 1) k = swapStep key (T i) i k) {n : Nat} (hn : n ≤ 256) :
    ∀ k, k < 256 → swapTable key n k = T n k := by
  induction n with
  | zero => exact fun k hk => (h0 k hk).symm
  | succ n ih =>
    intro k hk
    have before := ih (by omega)
    have inside : Equiv.swap n (swapPartner key n) k < 256 := by
      have hj := swapPartner_lt key n
      rw [Equiv.swap_apply_def]
      split_ifs <;> omega
    rw [swapTable_succ, hs n hn k hk, swapStep_eq_comp_swap, swapStep_eq_comp_swap]
    exact before _ inside

/-- The identity table holds each byte value at exactly one place. -/
theorem identityTable_bijOn : Set.BijOn (fun i : Nat => (BitVec.ofNat 8 i : Byte)) (Set.Iio 256) Set.univ :=
  Set.InvOn.bijOn (f' := BitVec.toNat) ⟨fun _ hi => Nat.mod_eq_of_lt hi, fun b _ => by simp⟩
    (Set.mapsTo_univ _ _) fun b _ => b.isLt

/-- Every swap keeps the table a permutation (R92). -/
theorem swapTable_bijOn {n : Nat} (hn : n ≤ 256) : Set.BijOn (swapTable key n) (Set.Iio 256) Set.univ := by
  induction n with
  | zero => exact identityTable_bijOn
  | succ n ih =>
    have hswap : Set.BijOn (Equiv.swap n (swapPartner key n)) (Set.Iio 256) (Set.Iio 256) :=
      Equiv.swap_bijOn_self (iff_of_true hn (swapPartner_lt key n))
    rw [swapTable_succ, swapStep_eq_comp_swap]
    exact (ih (by omega)).comp hswap

end

/-! ### KSCHED -/

/-- KSCHED leaves the single S-box of KEY in SBOX (R90). -/
theorem scheduleSbox_sbox (s : State) {i : Nat} (hi : i < 256) :
    (scheduleSbox s).sbox i = some (swapTable s.key 256 i) := by
  have inside : 0x1000 ≤ 0x1000 + i ∧ 0x1000 + i < 0x1100 := by omega
  rw [State.sbox, Config.sboxBase, scheduleSbox_read, if_pos inside, Nat.add_sub_cancel_left, singleSbox_eq_swapTable]

/-- Settles O36: R90's recurrence has one solution, the model's tables. -/
theorem kschedSwapsTheTable : Obligations.KschedSwapsTheTable := by
  intro s T h0 hs
  refine ⟨scheduleSbox s, rfl, rfl, fun k hk => ?_, fun x hx => ?_⟩
  · rw [scheduleSbox_sbox s hk, swapTable_unique s.key h0 hs le_rfl k hk]
  · rw [scheduleSbox_read, if_neg hx]

/-- Settles O37: the last table is a bijection from the 256 places onto the byte values. -/
theorem kschedGivesAPermutation : Obligations.KschedGivesAPermutation := by
  refine fun s => ⟨scheduleSbox s, rfl, fun b => ?_⟩
  have table := swapTable_bijOn s.key le_rfl
  obtain ⟨i, hi, rfl⟩ := table.surjOn (Set.mem_univ b)
  refine ⟨i, ⟨hi, scheduleSbox_sbox s hi⟩, fun k ⟨hk, e⟩ => ?_⟩
  rw [scheduleSbox_sbox s hk] at e
  exact table.injOn hk hi (Option.some.inj e)

end Sys2Proof.Machine
end

section
/-! SUPPORT. The expansion of the single S-box and the pipeline of SETUP (spec/42_sbox_expansion.md R94 to R101). -/

namespace Sys2Proof.Machine

/-! ### The destinations -/

theorem destination_lt (p : Nat) : destination p < 4096 := Nat.mod_lt _ (by decide)

/-- T(n + 1) = T(n) + (n + 1), mod 4096 (R96). -/
theorem destination_succ (n : Nat) : destination (n + 1) = (destination n + (n + 1)) % 4096 := by
  have triangle : (n + 1) * (n + 1 + 1) / 2 = n * (n + 1) / 2 + (n + 1) := by
    rw [show (n + 1) * (n + 1 + 1) = n * (n + 1) + 2 * (n + 1) by ring, Nat.add_mul_div_left _ _ two_pos]
  rw [destination, destination, triangle, Nat.mod_add_mod]

/-- Equal destinations: twice the difference of two triangular numbers is a product with one odd factor, and 8192 divides
it. -/
theorem dvd_of_destination_eq {p q : Nat} (hpq : p ≤ q) (e : destination p = destination q) :
    8192 ∣ (q - p) * (p + q + 1) := by
  have twice (n : Nat) : 2 * (n * (n + 1) / 2) = n * (n + 1) := Nat.two_mul_div_two_of_even (Nat.even_mul_succ_self n)
  have h : p * (p + 1) ≡ q * (q + 1) [MOD 8192] := by
    simpa only [twice] using Nat.ModEq.mul_left' 2 (show p * (p + 1) / 2 ≡ q * (q + 1) / 2 [MOD 4096] from e)
  have product : q * (q + 1) - p * (p + 1) = (q - p) * (p + q + 1) := by
    obtain ⟨k, rfl⟩ := Nat.exists_eq_add_of_le hpq
    rw [Nat.add_sub_cancel_left, Nat.sub_eq_iff_eq_add (by gcongr)]
    ring
  rw [← product]
  exact (Nat.modEq_iff_dvd' (by gcongr)).mp h

/-- 8192 is a power of two: an odd factor takes no part in its dividing a product. -/
theorem dvd_of_dvd_mul_odd {a b : Nat} (hb : Odd b) (h : 8192 ∣ a * b) : 8192 ∣ a :=
  (hb.coprime_two_left.pow_left 13 : Nat.Coprime 8192 b).dvd_of_dvd_mul_right h

/-- No two source positions have one destination (R97): q - p and p + q + 1 are not both even, and neither reaches 8192. -/
theorem destination_injOn : Set.InjOn destination (Set.Iio 4096) := by
  have forward {p q : Nat} (hq : q < 4096) (hpq : p ≤ q) (e : destination p = destination q) : p = q := by
    have h := dvd_of_destination_eq hpq e
    rcases Nat.even_or_odd (q - p) with even | odd
    · have hodd : Odd (p + q + 1) := by
        obtain ⟨k, hk⟩ := even
        exact ⟨p + k, by omega⟩
      have := Nat.eq_zero_of_dvd_of_lt (dvd_of_dvd_mul_odd hodd h) (by omega)
      omega
    · have := Nat.eq_zero_of_dvd_of_lt (dvd_of_dvd_mul_odd odd (Nat.mul_comm .. ▸ h)) (by omega)
      omega
  intro p hp q hq e
  rcases Nat.le_total p q with hpq | hqp
  · exact forward hq hpq e
  · exact (forward hp hqp e.symm).symm

/-- T is a bijection from 0..4095 onto 0..4095 (R97). -/
theorem destination_bijOn : Set.BijOn destination (Set.Iio 4096) (Set.Iio 4096) := by
  have maps : Set.MapsTo destination (Set.Iio 4096) (Set.Iio 4096) := fun p _ => destination_lt p
  have injective := destination_injOn
  refine ⟨maps, injective, ?_⟩
  rw [← Finset.coe_range] at maps injective ⊢
  exact Finset.surjOn_of_injOn_of_card_le destination maps injective le_rfl

theorem destination_existsUnique {k : Nat} (hk : k < 4096) : ∃! p, p < 4096 ∧ destination p = k := by
  obtain ⟨p, hp, rfl⟩ := destination_bijOn.surjOn hk
  exact ⟨p, ⟨hp, rfl⟩, fun q ⟨hq, e⟩ => destination_injOn hq hp e⟩

/-! ### The loop of EXPAND -/

section
variable (src : Nat → MByte)

/-- The destination index and the shift before the pass of source position `n` (R96). -/
theorem shuffle_index {n : Nat} (hn : n ≤ 4095) :
    (shuffle src n).d = destination n ∧ (shuffle src n).shift = if n = 4095 then 1 else n + 1 := by
  induction n with
  | zero => exact ⟨rfl, rfl⟩
  | succ n ih =>
    obtain ⟨hd, hshift⟩ := ih (by omega)
    rw [if_neg (by omega)] at hshift
    rw [shuffle_succ, shuffleStep, hd, hshift, destination_succ, Config.flatBytes]
    exact ⟨rfl, if_congr (by omega) rfl rfl⟩

/-- Once its source position has passed, a destination keeps its byte: no later pass goes there (R97). -/
theorem shuffle_byte_destination {n p : Nat} (hn : n ≤ 4096) (hp : p < n) :
    (shuffle src n).byte (destination p) = src p := by
  induction n with
  | zero => omega
  | succ n ih =>
    rw [shuffle_succ, shuffleStep_byte, (shuffle_index src (by omega)).1]
    rcases Nat.lt_succ_iff_lt_or_eq.1 hp with before | rfl
    · have other : destination p ≠ destination n := fun e =>
        before.ne (destination_injOn (show p < 4096 by omega) (show n < 4096 by omega) e)
      rw [if_neg other, ih (by omega) before]
    · rw [if_pos rfl]

end

/-! ### EXPAND -/

section
variable {s : State}

/-- EXPAND stores every byte of RSBOX. -/
theorem expandSbox_rsboxFlat (s : State) {k : Nat} (hk : k < 4096) :
    (expandSbox s).rsboxFlat k = some (s.lane k ((shuffle (flatCopies s) 4096).byte k)) := by
  have inside : 0x2000 ≤ 0x2000 + k ∧ 0x2000 + k < 0x3000 := by omega
  rw [State.rsboxFlat, Config.rsboxBase, expandSbox_read, if_pos inside, Nat.add_sub_cancel_left, Config.flatBytes]

/-- EXPAND leaves every byte outside RSBOX as it is. -/
theorem expandSbox_read_outside (s : State) {x : Nat} (hx : ¬ (0x2000 ≤ x ∧ x < 0x3000)) :
    (expandSbox s).mem.read x = s.mem.read x := by
  rw [expandSbox_read, if_neg hx]

theorem expandSbox_sbox (s : State) {i : Nat} (hi : i < 256) : (expandSbox s).sbox i = s.sbox i :=
  expandSbox_read_outside s (by rw [Config.sboxBase]; omega)

/-- The closed form (R97), where the SBOX byte copied is written. -/
theorem expandSbox_rsboxFlat_destination {p : Nat} {b : Byte} (hp : p < 4096) (hb : s.sbox (p % 256) = some b) :
    (expandSbox s).rsboxFlat (destination p) = some b := by
  rw [expandSbox_rsboxFlat s (destination_lt p), shuffle_byte_destination _ le_rfl hp]
  exact congrArg (fun x => some (s.lane _ x)) hb

theorem sboxUnknown_of_written (h : ∀ i, i < 256 → (s.sbox i).isSome = true) : sboxUnknown s = false := by
  refine List.any_eq_false.2 fun i hi => ?_
  simpa [Option.isSome_iff_ne_none] using h i (List.mem_range.1 hi)

theorem sboxUnknown_of_none {i : Nat} (hi : i < 256) (h : s.sbox i = none) : sboxUnknown s = true :=
  List.any_eq_true.2 ⟨i, List.mem_range.2 hi, by rw [h]; rfl⟩

/-- With SBOX written EXPAND changes the RAMs only: it records nothing and draws nothing. -/
theorem expandSbox_frame_of_written (h : ∀ i, i < 256 → (s.sbox i).isSome = true) :
    expandSbox s = { s with mem := (expandSbox s).mem } := by
  unfold expandSbox
  rw [sboxUnknown_of_written h, State.record_false]

end

/-- Settles O38: the loop's index and shift, at the last shift and before it. -/
theorem shuffleIndexIsTriangular : Obligations.ShuffleIndexIsTriangular := by
  intro src n hn
  obtain ⟨hd, hshift⟩ := shuffle_index src hn
  refine ⟨hd, fun h => ?_, fun h => ?_⟩
  · rw [hshift, if_neg (by omega)]
  · rw [hshift, if_pos h]

/-- Settles O39: T is a bijection, and each destination keeps the one byte written to it. -/
theorem expandClosedForm : Obligations.ExpandClosedForm :=
  ⟨fun _ hk => destination_existsUnique hk,
    fun s => ⟨expandSbox s, rfl, fun _ _ hp hb => expandSbox_rsboxFlat_destination hp hb⟩⟩

/-- Settles O40: the record follows the 256 bytes of SBOX. -/
theorem expandChangesOnlyRsbox : Obligations.ExpandChangesOnlyRsbox := by
  refine fun s => ⟨expandSbox s, rfl, expandSbox_frame s, fun k hk => ?_, fun x hx => expandSbox_read_outside s hx,
    fun h => ?_, fun i hi h => ?_⟩
  · rw [expandSbox_rsboxFlat s hk]; rfl
  · rw [expandSbox_frame_of_written h]; exact ⟨rfl, rfl⟩
  · rw [expandSbox_fault, sboxUnknown_of_none hi h, if_pos rfl]

/-! ### SETUP -/

/-- Settles O41: SETUP is the composition of the three stages. -/
theorem setupRunsTheThreeStages : Obligations.SetupRunsTheThreeStages := fun D s =>
  ⟨hashKey D s, scheduleSbox (hashKey D s), setupTables D s, rfl, rfl, rfl, rfl⟩

section
variable (D : Digest) (s : State)

/-- SETUP's last stage reads the table that its middle stage wrote, and keeps it (R101). -/
theorem setupTables_sbox {i : Nat} (hi : i < 256) :
    (setupTables D s).sbox i = some (swapTable (D s.pwd) 256 i) := by
  rw [setupTables, expandSbox_sbox _ hi]
  exact scheduleSbox_sbox (hashKey D s) hi

/-- SETUP changes KEY and the RAMs only: its own EXPAND reads no unwritten byte. -/
theorem setupTables_frame : setupTables D s = { s with key := D s.pwd, mem := (setupTables D s).mem } := by
  have written (i : Nat) (hi : i < 256) : ((scheduleSbox (hashKey D s)).sbox i).isSome = true := by
    rw [scheduleSbox_sbox _ hi]; rfl
  exact expandSbox_frame_of_written written

/-- SETUP leaves RSBOX the expansion of SBOX (R97). -/
theorem setupTables_rsboxFlat_destination {p : Nat} (hp : p < 4096) :
    (setupTables D s).rsboxFlat (destination p) = (setupTables D s).sbox (p % 256) := by
  have hi : p % 256 < 256 := Nat.mod_lt _ (by decide)
  rw [setupTables_sbox D s hi]
  exact expandSbox_rsboxFlat_destination hp (scheduleSbox_sbox (hashKey D s) hi)

/-- SETUP leaves no RAM byte unwritten. -/
theorem setupTables_ramWritten : (setupTables D s).RamWritten := by
  intro a ha
  rcases (isRamOffset_iff a).1 ha with sbox | rsbox
  · obtain ⟨i, rfl⟩ := Nat.exists_eq_add_of_le sbox.1
    exact Option.isSome_of_eq_some (setupTables_sbox D s (i := i) (by omega))
  · obtain ⟨k, rfl⟩ := Nat.exists_eq_add_of_le rsbox.1
    exact Option.isSome_of_eq_some (expandSbox_rsboxFlat _ (k := k) (by omega))

/-- SETUP leaves SBOX a permutation (R92). -/
theorem setupTables_sbox_existsUnique (b : Byte) : ∃! i, i < 256 ∧ (setupTables D s).sbox i = some b := by
  obtain ⟨t, ht, hperm⟩ := kschedGivesAPermutation (hashKey D s)
  cases ht
  have kept (i : Nat) : (i < 256 ∧ (setupTables D s).sbox i = some b)
      ↔ (i < 256 ∧ (scheduleSbox (hashKey D s)).sbox i = some b) :=
    and_congr_right fun hi => by rw [setupTables, expandSbox_sbox _ hi]
  exact (existsUnique_congr kept).2 (hperm b)

end

/-- Settles O42: KSCHED's permutation and EXPAND's closed form, on the tables that SETUP passes on. -/
theorem setupTablesForEveryDigest : Obligations.SetupTablesForEveryDigest :=
  ⟨fun _ => rfl, fun D s => ⟨rfl, setupTables_frame D s, setupTables_sbox_existsUnique D s,
    fun _ hp => setupTables_rsboxFlat_destination D s hp, setupTables_ramWritten D s⟩⟩

end Sys2Proof.Machine
end

section
/-! SUPPORT. The round function and ROUNDF (spec/43_round_function.md R102 to R108). -/

namespace Sys2Proof.Machine

/-! ### The output bytes of F -/

section
variable {α : Type} (A : Arith α) (h : Half α) (S : α → α)

@[simp] theorem F_b0 : (F A h S).b0 = S h.b3 := rfl
@[simp] theorem F_b1 : (F A h S).b1 = S (A.add h.b3 h.b2) := rfl
@[simp] theorem F_b2 : (F A h S).b2 = S (A.add (A.add h.b3 h.b2) h.b1) := rfl
@[simp] theorem F_b3 : (F A h S).b3 = S (A.add (A.add (A.add h.b3 h.b2) h.b1) h.b0) := rfl

end

/-- Settles O45: byte k of F is the S-box entry at the sum of the input bytes from 3 down to 3 - k. -/
theorem roundFunctionDependence : Obligations.RoundFunctionDependence := by
  intro h g S h3
  refine ⟨?_, fun h2 => ⟨?_, fun h1 => ?_⟩⟩
  · rw [F_b0, F_b0, h3]
  · rw [F_b1, F_b1, h3, h2]
  · rw [F_b2, F_b2, h3, h2, h1]

/-! ### ROUNDF -/

/-- What F reads from RAM is R102's closed form: reducing each partial sum mod 256 reduces the whole sum. -/
theorem F_roundSbox_eq_roundBytes (s : State) (r : Nat) (h : Half Byte) :
    F .mbyte (h.map some) (s.roundSbox r) = s.roundBytes r h := by
  simp [F, Arith.mbyte, Arith.byte, State.roundBytes, BitVec.toNat_add]

/-- ROUNDF stores the four bytes of R102 in DATA1, and the record of R40 follows them. -/
theorem exec_roundf (r : BitVec 4) (s : State) : exec (.roundf r) s =
    .next { s.record (s.roundBytes r.toNat s.data.left).unknown with
            data := ⟨s.data.left, s.laneHalf 4 (s.roundBytes r.toNat s.data.left)⟩ } := by
  rw [← F_roundSbox_eq_roundBytes]; rfl

/-- A lane computed from written bytes is stored as it is. -/
theorem State.lane_of_eq_some (s : State) (k : Nat) {x : MByte} {b : Byte} (hx : x = some b) : s.lane k x = b := by
  rw [hx, State.lane_some]

/-- Settles O43: four written bytes are stored as they are, and nothing is recorded. -/
theorem roundfAppliesTheRoundFunction : Obligations.RoundfAppliesTheRoundFunction := by
  intro s r o ho
  rw [exec_roundf, ho, Half.unknown_map_some, State.record_false, State.laneHalf_map_some]

/-- Settles O44: an unwritten byte sets the record, which touches the model's own fields only. -/
theorem roundfOnUnwrittenBytes : Obligations.RoundfOnUnwrittenBytes := by
  intro s r hu
  refine ⟨_, exec_roundf r s, ?fault, ?frame, fun _ => s.lane_of_eq_some 4, fun _ => s.lane_of_eq_some 5,
    fun _ => s.lane_of_eq_some 6, fun _ => s.lane_of_eq_some 7⟩
  case fault => exact (s.record_fault _).trans (if_pos hu)
  case frame => rw [s.record_frame]

end Sys2Proof.Machine
end

section
/-! SUPPORT. ENC and DEC, the 16-round Feistel network (spec/44_feistel_network.md R109 to R116): one round on written bytes, on
an unwritten byte and undone; the rounds in sequence; and what the network's result leaves in the state. -/

namespace Sys2Proof.Machine

/-! ### Blocks of written bytes -/

/-- A block of plain bytes, as the network computes with it. -/
def Block.written (b : Block Byte) : Block MByte := ⟨b.left.map some, b.right.map some⟩

theorem Block.Known.exists_written {b : Block MByte} (h : b.Known) : ∃ c : Block Byte, b = c.written := by
  obtain ⟨l, hl⟩ := b.left.eq_map_some_of_known h.1
  obtain ⟨r, hr⟩ := b.right.eq_map_some_of_known h.2
  exact ⟨⟨l, r⟩, congrArg₂ Block.mk hl hr⟩

theorem Block.known_iff (b : Block MByte) : b.Known ↔ (b.left.unknown || b.right.unknown) = false :=
  Bool.or_eq_false_iff.symm

/-- A block with an unwritten half is not known, whichever half it is. -/
theorem Block.not_known_of_right {b : Block MByte} (h : b.right.unknown = true) : ¬ b.Known := fun hk =>
  Bool.false_ne_true (hk.2.symm.trans h)

theorem Block.not_known_of_left {b : Block MByte} (h : b.left.unknown = true) : ¬ b.Known := fun hk =>
  Bool.false_ne_true (hk.1.symm.trans h)

theorem exec_enc (s : State) : exec .enc s = .next (s.storeBlock (encNetwork .mbyte s.roundSbox s.data.written)) := rfl

theorem exec_dec (s : State) : exec .dec s = .next (s.storeBlock (decNetwork .mbyte s.roundSbox s.data.written)) := rfl

/-! ### Storing the network's result -/

section
variable {s : State} {b : Block MByte}

theorem State.storeBlock_written (s : State) (c : Block Byte) : s.storeBlock c.written = { s with data := c } :=
  s.storeBlock_known c

/-- ENC stores the block that the rounds end in, where every byte of it is known. -/
theorem exec_enc_of_written {c : Block Byte} (h : encNetwork .mbyte s.roundSbox s.data.written = c.written) :
    exec .enc s = .next { s with data := c } := by
  rw [exec_enc, h, State.storeBlock_written]

theorem exec_dec_of_written {c : Block Byte} (h : decNetwork .mbyte s.roundSbox s.data.written = c.written) :
    exec .dec s = .next { s with data := c } := by
  rw [exec_dec, h, State.storeBlock_written]

/-- An unwritten byte in the network's result is recorded (R40). -/
theorem storeBlock_fault_of_not_known (hb : ¬ b.Known) : (s.storeBlock b).fault = some .unwrittenRam := by
  rw [b.known_iff, Bool.not_eq_false] at hb
  rw [State.storeBlock_fault, hb, if_pos rfl]

/-- Storing a result draws no free value exactly when every byte of it is known (R16). -/
theorem drawsNothing_storeBlock_iff : s.DrawsNothing (s.storeBlock b) ↔ b.Known := by
  have hdraws : (s.storeBlock b).draws = if b.left.unknown || b.right.unknown then s.draws + 1 else s.draws :=
    s.record_draws _
  rw [b.known_iff, State.DrawsNothing, hdraws]
  cases b.left.unknown || b.right.unknown <;> simp

theorem exists_written_of_drawsNothing (h : s.DrawsNothing (s.storeBlock b)) : ∃ c : Block Byte, b = c.written :=
  (drawsNothing_storeBlock_iff.mp h).exists_written

end

/-! ### One round -/

section
variable {S : Nat → MByte → MByte} {b : Block MByte} {r : Nat}

/-- A round never loses an unwritten byte: the old right half is kept, and the left half is one operand of the sum. -/
theorem known_of_encRound_known (h : (encRound .mbyte S b r).Known) : b.Known := by
  obtain ⟨hright, hsum⟩ := h
  rw [encRound, Half.unknown_zip_xor, Bool.or_eq_false_iff] at hsum
  exact ⟨hsum.1, hright⟩

theorem known_of_decRound_known (h : (decRound .mbyte S b r).Known) : b.Known := by
  obtain ⟨hsum, hleft⟩ := h
  rw [decRound, Half.unknown_zip_xor, Bool.or_eq_false_iff] at hsum
  exact ⟨hleft, hsum.1⟩

theorem xorHalf_zero (x : Half Byte) : xorHalf x ⟨0, 0, 0, 0⟩ = x := by simp [xorHalf]

theorem xorHalf_cancel (x o : Half Byte) : xorHalf (xorHalf x o) o = x := by simp [xorHalf]

/-- Adding the same half-block twice gives the first one back, where the sum is known. -/
theorem Half.zip_xor_cancel {x y : Half MByte} (h : (x.zip Arith.mbyte.xor y).unknown = false) :
    (x.zip Arith.mbyte.xor y).zip Arith.mbyte.xor y = x := by
  rw [Half.unknown_zip_xor, Bool.or_eq_false_iff] at h
  obtain ⟨g, rfl⟩ := x.eq_map_some_of_known h.1
  obtain ⟨o, rfl⟩ := y.eq_map_some_of_known h.2
  exact congrArg (Half.map some) (xorHalf_cancel g o)

/-- DEC's round recomputes F of the half that ENC's round kept, and so takes it off again (R114). -/
theorem decRound_encRound (h : (encRound .mbyte S b r).Known) : decRound .mbyte S (encRound .mbyte S b r) r = b :=
  congrArg (Block.mk · b.right) (Half.zip_xor_cancel h.2)

theorem encRound_decRound (h : (decRound .mbyte S b r).Known) : encRound .mbyte S (decRound .mbyte S b r) r = b :=
  congrArg (Block.mk b.left) (Half.zip_xor_cancel h.1)

end

section
variable {s : State} {r : Nat} {x y o : Half Byte}

/-- ENC's round on written bytes is R110's. -/
theorem encRound_written (ho : s.roundBytes r y = o.map some) :
    encRound .mbyte s.roundSbox (Block.written ⟨x, y⟩) r = Block.written ⟨y, xorHalf x o⟩ := by
  rw [encRound, Block.written, F_roundSbox_eq_roundBytes, ho]; rfl

/-- DEC's round on written bytes is R111's. -/
theorem decRound_written (ho : s.roundBytes r x = o.map some) :
    decRound .mbyte s.roundSbox (Block.written ⟨x, y⟩) r = Block.written ⟨xorHalf y o, x⟩ := by
  rw [decRound, Block.written, F_roundSbox_eq_roundBytes, ho]; rfl

/-- An unwritten byte that F reads is in the round's result. -/
theorem encRound_not_known (ho : (s.roundBytes r y).unknown = true) :
    ¬ (encRound .mbyte s.roundSbox (Block.written ⟨x, y⟩) r).Known :=
  Block.not_known_of_right <| by
    rw [encRound, Block.written, F_roundSbox_eq_roundBytes, Half.unknown_zip_xor, ho, Bool.or_true]

theorem decRound_not_known (ho : (s.roundBytes r x).unknown = true) :
    ¬ (decRound .mbyte s.roundSbox (Block.written ⟨x, y⟩) r).Known :=
  Block.not_known_of_left <| by
    rw [decRound, Block.written, F_roundSbox_eq_roundBytes, Half.unknown_zip_xor, ho, Bool.or_true]

end

/-! ### The rounds in sequence -/

section
variable {S : Nat → MByte → MByte}

theorem known_of_decRounds_known {n : Nat} {b : Block MByte}
    (h : ((List.range n).reverse.foldl (decRound .mbyte S) b).Known) : b.Known := by
  induction n generalizing b with
  | zero => exact h
  | succ n ih => rw [decRounds_succ] at h; exact known_of_decRound_known (ih h)

theorem decRounds_encRounds {n : Nat} {b : Block MByte} (h : ((List.range n).foldl (encRound .mbyte S) b).Known) :
    (List.range n).reverse.foldl (decRound .mbyte S) ((List.range n).foldl (encRound .mbyte S) b) = b := by
  induction n with
  | zero => rfl
  | succ n ih =>
    rw [encRounds_succ] at h ⊢
    rw [decRounds_succ, decRound_encRound h, ih (known_of_encRound_known h)]

theorem encRounds_decRounds {n : Nat} {b : Block MByte}
    (h : ((List.range n).reverse.foldl (decRound .mbyte S) b).Known) :
    (List.range n).foldl (encRound .mbyte S) ((List.range n).reverse.foldl (decRound .mbyte S) b) = b := by
  induction n generalizing b with
  | zero => rfl
  | succ n ih =>
    rw [decRounds_succ] at h ⊢
    rw [encRounds_succ, ih h, encRound_decRound (known_of_decRounds_known h)]

end

/-- Round `r` of R113's recursion, from the halves at `r` to those at `r + 1`, reads written bytes only. -/
def State.EncRoundAt (s : State) (L R Fo : Nat → Half Byte) (r : Nat) : Prop :=
  s.roundBytes r (R r) = (Fo r).map some ∧ L (r + 1) = R r ∧ R (r + 1) = xorHalf (L r) (Fo r)

/-- Round `r` of R111, from the halves at `r + 1` to those at `r`, reads written bytes only. -/
def State.DecRoundAt (s : State) (L R Fo : Nat → Half Byte) (r : Nat) : Prop :=
  s.roundBytes r (L (r + 1)) = (Fo r).map some ∧ L r = xorHalf (R (r + 1)) (Fo r) ∧ R r = L (r + 1)

section
variable {s : State} {L R Fo : Nat → Half Byte}

theorem State.EncRoundAt.encRound_eq {r : Nat} (h : s.EncRoundAt L R Fo r) :
    encRound .mbyte s.roundSbox (Block.written ⟨L r, R r⟩) r = Block.written ⟨L (r + 1), R (r + 1)⟩ := by
  obtain ⟨hbytes, hl, hr⟩ := h
  rw [encRound_written hbytes, hl, hr]

theorem State.DecRoundAt.decRound_eq {r : Nat} (h : s.DecRoundAt L R Fo r) :
    decRound .mbyte s.roundSbox (Block.written ⟨L (r + 1), R (r + 1)⟩) r = Block.written ⟨L r, R r⟩ := by
  obtain ⟨hbytes, hl, hr⟩ := h
  rw [decRound_written hbytes, hl, hr]

theorem encRounds_written {n : Nat} (h : ∀ r, r < n → s.EncRoundAt L R Fo r) :
    (List.range n).foldl (encRound .mbyte s.roundSbox) (Block.written ⟨L 0, R 0⟩) = Block.written ⟨L n, R n⟩ := by
  induction n with
  | zero => rfl
  | succ n ih => rw [encRounds_succ, ih fun r hr => h r (by omega), (h n (by omega)).encRound_eq]

theorem decRounds_written {n : Nat} (h : ∀ r, r < n → s.DecRoundAt L R Fo r) :
    (List.range n).reverse.foldl (decRound .mbyte s.roundSbox) (Block.written ⟨L n, R n⟩)
      = Block.written ⟨L 0, R 0⟩ := by
  induction n with
  | zero => rfl
  | succ n ih => rw [decRounds_succ, (h n (by omega)).decRound_eq, ih fun r hr => h r (by omega)]

/-- Once round `n` has read an unwritten byte, the block of no later round is known. -/
theorem encRounds_not_known {n m : Nat} (hm : n + 1 ≤ m) (h : ∀ r, r < n → s.EncRoundAt L R Fo r)
    (hu : (s.roundBytes n (R n)).unknown = true) :
    ¬ ((List.range m).foldl (encRound .mbyte s.roundSbox) (Block.written ⟨L 0, R 0⟩)).Known := by
  induction m, hm using Nat.le_induction with
  | base => rw [encRounds_succ, encRounds_written h]; exact encRound_not_known hu
  | succ m _ ih => rw [encRounds_succ]; exact mt known_of_encRound_known ih

theorem decRounds_not_known {n m : Nat} (hm : n + 1 ≤ m) (h : ∀ r, n < r → r < m → s.DecRoundAt L R Fo r)
    (hu : (s.roundBytes n (L (n + 1))).unknown = true) :
    ¬ ((List.range m).reverse.foldl (decRound .mbyte s.roundSbox) (Block.written ⟨L m, R m⟩)).Known := by
  induction m, hm using Nat.le_induction with
  | base => rw [decRounds_succ]; exact mt known_of_decRounds_known (decRound_not_known hu)
  | succ m hm ih =>
    rw [decRounds_succ, (h m hm (by omega)).decRound_eq]
    exact ih fun r hr hr' => h r hr (by omega)

end

/-! ### The tables the network reads -/

section
variable {s u : State}

/-- The sixteen round S-boxes are the 4096 bytes of RSBOX_FLAT (R14). -/
theorem roundSbox_eq_of_rsboxFlat (h : ∀ k, k < 4096 → s.rsboxFlat k = u.rsboxFlat k) {r : Nat} (hr : r < 16) :
    s.roundSbox r = u.roundSbox r := by
  funext x
  cases x with
  | none => rfl
  | some b => exact h _ (by have hb := b.isLt; omega)

theorem encNetwork_eq_of_rsboxFlat (h : ∀ k, k < 4096 → s.rsboxFlat k = u.rsboxFlat k) (b : Block MByte) :
    encNetwork .mbyte s.roundSbox b = encNetwork .mbyte u.roundSbox b :=
  List.foldl_ext _ _ _ fun _ r hr => by
    rw [encRound, roundSbox_eq_of_rsboxFlat h (List.mem_range.mp hr), encRound]

theorem decNetwork_eq_of_rsboxFlat (h : ∀ k, k < 4096 → s.rsboxFlat k = u.rsboxFlat k) (b : Block MByte) :
    decNetwork .mbyte s.roundSbox b = decNetwork .mbyte u.roundSbox b :=
  List.foldl_ext _ _ _ fun _ r hr => by
    rw [decRound, roundSbox_eq_of_rsboxFlat h (List.mem_range.mp (List.mem_reverse.mp hr)), decRound]

/-- A result stored without a free value is stored alike on every state. -/
theorem storeBlock_data_eq {b : Block MByte} (h : s.DrawsNothing (s.storeBlock b)) :
    (s.storeBlock b).data = (u.storeBlock b).data := by
  obtain ⟨c, rfl⟩ := exists_written_of_drawsNothing h
  rw [State.storeBlock_written, State.storeBlock_written]

/-- With every RSBOX byte 0, F gives the zero half-block (R115). -/
theorem roundBytes_of_zero (h : ∀ k, k < 4096 → s.rsboxFlat k = some 0) {r : Nat} (hr : r < 16) (x : Half Byte) :
    s.roundBytes r x = (⟨0, 0, 0, 0⟩ : Half Byte).map some := by
  have hz : ∀ i, i < 256 → s.rsbox r i = some 0 := fun i hi => h _ (by omega)
  simp [State.roundBytes, Half.map, hz _ x.b3.isLt, hz _ (Nat.mod_lt _ (by decide))]

end

/-- The half at position `r` when each round only exchanges the halves. -/
def Block.alternating (b : Block Byte) (r : Nat) : Half Byte := if r % 2 = 0 then b.left else b.right

theorem Block.alternating_add_two (b : Block Byte) (r : Nat) : b.alternating (r + 2) = b.alternating r := by
  simp [Block.alternating]

/-! ### The obligations of the family -/

/-- Settles O46: the rounds on written bytes, one after another. -/
theorem encRunsSixteenRounds : Obligations.EncRunsSixteenRounds := by
  intro s L R Fo hl hr h
  have hdata : s.data = ⟨L 0, R 0⟩ := congrArg₂ Block.mk hl.symm hr.symm
  apply exec_enc_of_written
  rw [hdata]
  exact encRounds_written h

/-- Settles O47: the rounds on written bytes, from the last one down. -/
theorem decRunsTheRoundsInReverse : Obligations.DecRunsTheRoundsInReverse := by
  intro s L R Fo hl hr h
  have hdata : s.data = ⟨L 16, R 16⟩ := congrArg₂ Block.mk hl.symm hr.symm
  apply exec_dec_of_written
  rw [hdata]
  exact decRounds_written h

/-- Settles O48: the result is stored in DATA alone, and an unwritten byte read in any round stays in the block to the end. -/
theorem encAndDecOnUnwrittenBytes : Obligations.EncAndDecOnUnwrittenBytes := by
  refine ⟨?frame, ?enc, ?dec⟩
  case frame =>
    rintro s i (rfl | rfl)
    · exact ⟨_, exec_enc s, s.storeBlock_frame _⟩
    · exact ⟨_, exec_dec s, s.storeBlock_frame _⟩
  case enc =>
    intro s t L R Fo n hn hl hr h hu ht
    have hdata : s.data = ⟨L 0, R 0⟩ := congrArg₂ Block.mk hl.symm hr.symm
    rw [exec_enc, hdata] at ht
    cases ht
    exact storeBlock_fault_of_not_known (encRounds_not_known hn h hu)
  case dec =>
    intro s t L R Fo n hn hl hr h hu ht
    have hdata : s.data = ⟨L 16, R 16⟩ := congrArg₂ Block.mk hl.symm hr.symm
    rw [exec_dec, hdata] at ht
    cases ht
    exact storeBlock_fault_of_not_known (decRounds_not_known hn h hu)

/-- Settles O49: a result that drew nothing is a block of known bytes, and the other network takes its rounds back one by
one. -/
theorem decUndoesEncAndEncUndoesDec : Obligations.DecUndoesEncAndEncUndoesDec := by
  refine ⟨?dec_enc, ?enc_dec⟩
  case dec_enc =>
    intro s t ht hd
    rw [exec_enc] at ht
    cases ht
    have hback : decNetwork .mbyte s.roundSbox (encNetwork .mbyte s.roundSbox s.data.written) = s.data.written :=
      decRounds_encRounds (drawsNothing_storeBlock_iff.mp hd)
    obtain ⟨c, hc⟩ := exists_written_of_drawsNothing hd
    rw [hc] at hback ⊢
    exact exec_dec_of_written (s := { s with data := c }) hback
  case enc_dec =>
    intro s t ht hd
    rw [exec_dec] at ht
    cases ht
    have hback : encNetwork .mbyte s.roundSbox (decNetwork .mbyte s.roundSbox s.data.written) = s.data.written :=
      encRounds_decRounds (drawsNothing_storeBlock_iff.mp hd)
    obtain ⟨c, hc⟩ := exists_written_of_drawsNothing hd
    rw [hc] at hback ⊢
    exact exec_enc_of_written (s := { s with data := c }) hback

/-- Settles O50: R113's recursion and its inverse, where every round only exchanges the halves, an even number of times. -/
theorem zeroTablesLeaveDataUnchanged : Obligations.ZeroTablesLeaveDataUnchanged := by
  intro s h
  have hF := fun r (hr : r < 16) => roundBytes_of_zero h hr
  constructor
  · exact encRunsSixteenRounds s s.data.alternating (s.data.alternating <| · + 1) (fun _ => ⟨0, 0, 0, 0⟩) rfl rfl
      fun r hr => ⟨hF r hr _, rfl, by rw [xorHalf_zero, Block.alternating_add_two]⟩
  · exact decRunsTheRoundsInReverse s s.data.alternating (s.data.alternating <| · + 1) (fun _ => ⟨0, 0, 0, 0⟩) rfl rfl
      fun r hr => ⟨hF r hr _, by rw [xorHalf_zero, Block.alternating_add_two], rfl⟩

/-- Settles O51: the two states give the network the same block and the same tables. -/
theorem encAndDecDependOnlyOnDataAndRsbox : Obligations.EncAndDecDependOnlyOnDataAndRsbox := by
  rintro s u i (rfl | rfl) hdata htables
  · refine ⟨_, _, exec_enc s, exec_enc u, fun hd => ?_⟩
    rw [← hdata, ← encNetwork_eq_of_rsboxFlat htables]
    exact storeBlock_data_eq hd
  · refine ⟨_, _, exec_dec s, exec_dec u, fun hd => ?_⟩
    rw [← hdata, ← decNetwork_eq_of_rsboxFlat htables]
    exact storeBlock_data_eq hd

end Sys2Proof.Machine
end

section
/-! SUPPORT. Padding, and the blocks of a buffer (spec/45_host_protocol.md R118 to R123). -/

namespace Sys2Proof.Machine.Driver

section
variable {p : List Byte}

/-! ### Padding -/

theorem removePadding_of_length (mode : Config.UnpadMode) (h : p.length % 8 ≠ 0) :
    removePadding mode p = .error .unpadLength := by
  unfold removePadding; exact if_pos h

/-- COUNT on a buffer of whole blocks looks at the last byte (R121). -/
theorem removePadding_count_concat (n : Byte) (h : (p ++ [n]).length % 8 = 0) :
    removePadding .count (p ++ [n]) = .ok (removeCount (p ++ [n]) n) := by
  unfold removePadding
  rw [if_neg (not_not.mpr h), List.getLast?_concat]

/-- FAITHFUL on a buffer of whole blocks looks at the last byte (R122). -/
theorem removePadding_faithful_concat (n : Byte) (h : (p ++ [n]).length % 8 = 0) :
    removePadding .faithful (p ++ [n]) = removeFaithful (p ++ [n]) n := by
  unfold removePadding
  rw [if_neg (not_not.mpr h), List.getLast?_concat]

/-- The number of bytes that `add_padding` appends, which is also the byte it appends (R118). -/
def padCount (m : List Byte) : Nat := 8 - m.length % 8

theorem padCount_bounds (m : List Byte) : 1 ≤ padCount m ∧ padCount m ≤ 8 := by
  rw [padCount]; omega

theorem addPadding_eq (m : List Byte) :
    addPadding m = m ++ List.replicate (padCount m) (BitVec.ofNat 8 (padCount m)) := rfl

theorem length_addPadding (m : List Byte) : (addPadding m).length = m.length + padCount m := by
  rw [addPadding_eq, List.length_append, List.length_replicate]

theorem length_addPadding_mod (m : List Byte) : (addPadding m).length % 8 = 0 := by
  rw [length_addPadding, padCount]; omega

/-- The last byte of a padded message is the number of bytes appended. -/
theorem addPadding_eq_concat (m : List Byte) : ∃ p, ∃ n : Byte, addPadding m = p ++ [n] ∧ n.toNat = padCount m := by
  obtain ⟨hpos, hle⟩ := padCount_bounds m
  obtain ⟨k, hk⟩ := Nat.exists_eq_add_of_le' hpos
  refine ⟨m ++ List.replicate k (BitVec.ofNat 8 (padCount m)), BitVec.ofNat 8 (padCount m), ?_,
    BitVec.toNat_ofNat .. |>.trans (Nat.mod_eq_of_lt (by omega))⟩
  rw [addPadding_eq, List.append_assoc, ← List.replicate_succ', ← hk]

/-! ### Blocks -/

/-- The bytes of a sequence of blocks, the inverse of `blocksOf`. -/
def bytesOf (bs : List (Block Byte)) : List Byte := bs.flatMap Block.toList

theorem bytesOf_cons (b : Block Byte) (bs : List (Block Byte)) : bytesOf (b :: bs) = b.toList ++ bytesOf bs := rfl

theorem bytesOf_map (f : Block Byte → Block Byte) (bs : List (Block Byte)) :
    bytesOf (bs.map f) = (bs.map fun b => (f b).toList).flatten := List.flatMap_map ..

theorem length_bytesOf (bs : List (Block Byte)) : (bytesOf bs).length = 8 * bs.length := by
  induction bs with
  | nil => rfl
  | cons b bs ih =>
    rw [bytesOf_cons, List.length_append, ih, List.length_cons, Nat.mul_succ, Nat.add_comm]; rfl

theorem blocksOf_bytesOf (bs : List (Block Byte)) : blocksOf (bytesOf bs) = bs := by
  induction bs with
  | nil => rfl
  | cons b bs ih => exact congrArg (b :: ·) ih

/-- A buffer of whole blocks loses no byte in the split. -/
theorem bytesOf_blocksOf (h : p.length % 8 = 0) : bytesOf (blocksOf p) = p := by
  induction p using blocksOf.induct with
  | case1 b0 b1 b2 b3 b4 b5 b6 b7 rest ih =>
    have hrest : rest.length % 8 = 0 := by simp only [List.length_cons] at h; omega
    rw [blocksOf, bytesOf_cons, ih hrest]; rfl
  | case2 p short =>
    match p, h with
    | [], _ => rfl
    | b0 :: b1 :: b2 :: b3 :: b4 :: b5 :: b6 :: b7 :: rest, _ => exact absurd rfl (short b0 b1 b2 b3 b4 b5 b6 b7 rest)

/-- Block by block a buffer keeps its length. -/
theorem length_bytesOf_map_blocksOf (f : Block Byte → Block Byte) (h : p.length % 8 = 0) :
    (bytesOf ((blocksOf p).map f)).length = p.length := by
  rw [length_bytesOf, List.length_map, ← length_bytesOf, bytesOf_blocksOf h]

end

/-! ### The statements -/

/-- Settles O54. -/
theorem paddingFillsTheLastBlock : Obligations.PaddingFillsTheLastBlock := fun m =>
  ⟨(padCount_bounds m).1, (padCount_bounds m).2, addPadding_eq m, length_addPadding_mod m, length_addPadding m⟩

/-- Settles O55. -/
theorem removePaddingInBothModes : Obligations.RemovePaddingInBothModes :=
  ⟨fun mode => by cases mode <;> rfl, fun mode _ h => removePadding_of_length mode h,
    fun _ n h => ⟨removePadding_count_concat n h, removePadding_faithful_concat n h⟩⟩

/-- Settles O56: the last byte of a padded message is a count in 1..8, so it is no digit either. -/
theorem removePaddingAfterAddPadding : Obligations.RemovePaddingAfterAddPadding := by
  intro m
  obtain ⟨hpos, hle⟩ := padCount_bounds m
  obtain ⟨p, n, hp, hn⟩ := addPadding_eq_concat m
  have whole : (p ++ [n]).length % 8 = 0 := hp ▸ length_addPadding_mod m
  constructor
  · have dropped : (addPadding m).length - n.toNat = m.length := by rw [length_addPadding, hn, Nat.add_sub_cancel]
    rw [hp, removePadding_count_concat n whole, ← hp, removeCount, if_neg (by omega), dropped, addPadding_eq,
      List.take_left]
  · rw [hp, removePadding_faithful_concat n whole, removeFaithful, if_pos (.inl (by omega))]

end Sys2Proof.Machine.Driver
end

section
/-! SUPPORT. The cipher of a password: the tables that SETUP leaves, and ENC and DEC with them as functions of a block of bytes
(spec/42_sbox_expansion.md R101, spec/44_feistel_network.md R110 to R114). -/

namespace Sys2Proof.Machine

/-- RSBOX holds the sixteen round S-boxes `S` (R14, R39). -/
def State.HoldsTables (s : State) (S : Nat → Byte → Byte) : Prop :=
  ∀ r, r < 16 → ∀ x : Byte, s.rsbox r x.toNat = some (S r x)

section
variable {s : State} {S : Nat → Byte → Byte} {r : Nat}

/-! ### The network over plain bytes -/

theorem F_written (hs : s.HoldsTables S) (hr : r < 16) (h : Half Byte) :
    F .mbyte (h.map some) (s.roundSbox r) = (F .byte h (S r)).map some :=
  F_map_some h _ _ fun b => (s.roundSbox_some r b).trans (hs r hr b)

theorem encRound_of_holdsTables (hs : s.HoldsTables S) (hr : r < 16) (b : Block Byte) :
    encRound .mbyte s.roundSbox b.written r = (encRound .byte S b r).written := by
  rw [encRound, Block.written, F_written hs hr, Half.zip_xor_map_some]; rfl

theorem decRound_of_holdsTables (hs : s.HoldsTables S) (hr : r < 16) (b : Block Byte) :
    decRound .mbyte s.roundSbox b.written r = (decRound .byte S b r).written := by
  rw [decRound, Block.written, F_written hs hr, Half.zip_xor_map_some]; rfl

theorem encNetwork_of_holdsTables (hs : s.HoldsTables S) (b : Block Byte) :
    encNetwork .mbyte s.roundSbox b.written = (encNetwork .byte S b).written :=
  List.foldl_rel (r := fun x c => x = Block.written c) rfl fun _ hr _ c h =>
    h ▸ encRound_of_holdsTables hs (List.mem_range.mp hr) c

theorem decNetwork_of_holdsTables (hs : s.HoldsTables S) (b : Block Byte) :
    decNetwork .mbyte s.roundSbox b.written = (decNetwork .byte S b).written :=
  List.foldl_rel (r := fun x c => x = Block.written c) rfl fun _ hr _ c h =>
    h ▸ decRound_of_holdsTables hs (List.mem_range.mp (List.mem_reverse.mp hr)) c

/-- ENC on written tables is the plain network, and changes DATA alone. -/
theorem exec_enc_of_holdsTables (hs : s.HoldsTables S) :
    exec .enc s = .next { s with data := encNetwork .byte S s.data } :=
  exec_enc_of_written (encNetwork_of_holdsTables hs s.data)

theorem exec_dec_of_holdsTables (hs : s.HoldsTables S) :
    exec .dec s = .next { s with data := decNetwork .byte S s.data } :=
  exec_dec_of_written (decNetwork_of_holdsTables hs s.data)

/-- R114 for the plain networks, by the device's own ENC and DEC on a state with these tables. -/
theorem decNetwork_encNetwork_of_holdsTables (hs : s.HoldsTables S) (b : Block Byte) :
    decNetwork .byte S (encNetwork .byte S b) = b := by
  let before : State := { s with data := b }
  let after : State := { s with data := encNetwork .byte S b }
  have henc : exec .enc before = .next after := exec_enc_of_holdsTables (s := before) hs
  have hdec : exec .dec after = .next { after with data := decNetwork .byte S after.data } := exec_dec_of_holdsTables hs
  have hback : exec .dec after = .next before := decUndoesEncAndEncUndoesDec.1 before after henc rfl
  exact congrArg State.data (Host.Outcome.next.inj (hdec.symm.trans hback))

end

/-! ### The tables of a password -/

section
variable (D : Digest)

/-- SETUP's RSBOX depends on the state through PWD only (R101). -/
theorem setupTables_rsboxFlat_eq {s u : State} (h : s.pwd = u.pwd) {k : Nat} (hk : k < 4096) :
    (setupTables D s).rsboxFlat k = (setupTables D u).rsboxFlat k := by
  obtain ⟨p, hp, rfl⟩ := destination_bijOn.surjOn hk
  have hi : p % 256 < 256 := Nat.mod_lt _ (by decide)
  rw [setupTables_rsboxFlat_destination D s hp, setupTables_rsboxFlat_destination D u hp, setupTables_sbox D s hi,
    setupTables_sbox D u hi, h]

/-- The sixteen round S-boxes of a password: what SETUP leaves in RSBOX on a device that has just absorbed it. -/
def passwordSboxes (pw : List Byte) (r : Nat) (x : Byte) : Byte :=
  ((setupTables D { State.reset with pwd := pw }).rsbox r x.toNat).getD 0

theorem setupTables_holdsTables (s : State) : (setupTables D s).HoldsTables (passwordSboxes D s.pwd) := by
  intro r hr x
  have hx := x.isLt
  let fresh : State := { State.reset with pwd := s.pwd }
  have same : (setupTables D s).rsbox r x.toNat = (setupTables D fresh).rsbox r x.toNat := by
    rw [State.rsbox, State.rsbox, setupTables_rsboxFlat_eq D (s := s) (u := fresh) rfl (by omega)]
  obtain ⟨b, hb⟩ := Option.isSome_iff_exists.mp (rsbox_isSome (setupTables_ramWritten D fresh) hr x)
  rw [same, passwordSboxes, hb, Option.getD_some]

/-- Encryption of one block under a password (R110). -/
def encBlock (pw : List Byte) (b : Block Byte) : Block Byte := encNetwork .byte (passwordSboxes D pw) b

/-- Decryption of one block under a password (R111). -/
def decBlock (pw : List Byte) (b : Block Byte) : Block Byte := decNetwork .byte (passwordSboxes D pw) b

/-- With the round S-boxes `S` in RSBOX, command `i` replaces DATA by `g` of it and changes nothing else. -/
def MapsData (S : Nat → Byte → Byte) (i : Instr) (g : Block Byte → Block Byte) : Prop :=
  ∀ s : State, s.HoldsTables S → execAt D i s = .next { s with data := g s.data }

theorem mapsData_enc (pw : List Byte) : MapsData D (passwordSboxes D pw) .enc (encBlock D pw) :=
  fun _ hs => exec_enc_of_holdsTables hs

theorem mapsData_dec (pw : List Byte) : MapsData D (passwordSboxes D pw) .dec (decBlock D pw) :=
  fun _ hs => exec_dec_of_holdsTables hs

theorem decBlock_leftInverse (pw : List Byte) : Function.LeftInverse (decBlock D pw) (encBlock D pw) :=
  decNetwork_encNetwork_of_holdsTables (setupTables_holdsTables D { State.reset with pwd := pw })

end

end Sys2Proof.Machine
end

section
/-! SUPPORT. The driver on the device: its transactions, a call's preparation and its blocks, and the ECB and round-trip laws
(spec/45_host_protocol.md R123 to R129). -/

namespace Sys2Proof.Machine.Driver

section
variable {D : Digest} {i : Instr} {s : State}

/-! ### The transactions of an idle device -/

theorem wr_eq_memWrite (r : Reg) (v : Word) (s : State) : wr r v s = memWrite r.offset v s := rfl

theorem wr_cmd (hb : s.busy = false) (i : Instr) : wr .cmd (encode i) s = s.accept i := by
  rw [wr_eq_memWrite, memWrite_cmd_encode hb rfl]

theorem byteOf_zero_setWidth (b : Byte) : byteOf 0 (b.setWidth 32) = b := by
  refine BitVec.eq_of_getLsbD_eq fun n hn => ?_
  rw [byteOf_getLsbD]
  simp [hn, show n < 32 by omega]

theorem wr_pwdData (hb : s.busy = false) (b : Byte) : wr .pwdData (b.setWidth 32) s = s.absorb b := by
  rw [wr_eq_memWrite, memWrite_pwdData _ hb rfl, byteOf_zero_setWidth]

/-- A block written to DATA0 and DATA1 is the Block (R109). -/
theorem wr_block (hb : s.busy = false) (b : Block Byte) :
    wr .data1 b.right.word (wr .data0 b.left.word s) = { s with data := b } := by
  rw [wr_eq_memWrite, wr_eq_memWrite, memWrite_data0 hb rfl, memWrite_data1 (by exact hb) rfl, Half.ofWord_word,
    Half.ofWord_word]

/-- The block read from DATA0 and DATA1 is the Block (R109). -/
theorem rd_block (hb : s.busy = false) :
    (let x := rd .data0 s
     let y := rd .data1 x.2
     ((⟨.ofWord x.1, .ofWord y.1⟩ : Block Byte), y.2)) = (s.data, { s with reply := some s.data.right.word }) := by
  simp only [rd, hostStep]
  rw [memRead_data0 hb rfl, memRead_data1 (by exact hb) rfl]
  simp only [Option.getD_some, Half.ofWord_word]

theorem statusWord_errf (s : State) : s.statusWord.getLsbD 2 = s.errf := by
  rw [s.statusWord_getLsbD 2 (by decide)]; simp

/-! ### A command -/

/-- The state after a command and its WAIT: the lifecycle writes, and the last poll's word in the host's hands. -/
def polled (t : State) : State := { t.complete with reply := some t.complete.statusWord }

theorem polled_errf (t : State) : (polled t).errf = t.errf := rfl

theorem polled_fault (t : State) : (polled t).fault = t.fault := rfl

theorem cmd_of_execAt (hb : s.busy = false) (h : execAt D i (s.accept i) = .next t) : cmd D i s = .ok (polled t) := by
  rw [cmd, wr_cmd hb, wait, engineStep_of_cur D (s.accept_cur i), h]; rfl

/-- A password is absorbed byte by byte, with no error while it fits (R86). -/
theorem pwdb_of_room {pw : List Byte} (hb : s.busy = false) (h : s.pwd.length + pw.length ≤ Config.pwdMax) :
    pwdb pw s = { s with pwd := s.pwd ++ pw } := by
  induction pw generalizing s with
  | nil => rw [List.append_nil]; rfl
  | cons b pw ih =>
    rw [List.length_cons] at h
    have absorbed : wr .pwdData (b.setWidth 32) s = { s with pwd := s.pwd ++ [b] } := by
      rw [wr_pwdData hb, s.absorb_of_room b (by omega)]
    calc pwdb (b :: pw) s
      _ = pwdb pw { s with pwd := s.pwd ++ [b] } := congrArg (pwdb pw) absorbed
      _ = { s with pwd := s.pwd ++ [b] ++ pw } := ih hb (by simp only [List.length_append, List.length_singleton]; omega)
      _ = { s with pwd := s.pwd ++ b :: pw } := by rw [List.append_assoc, List.singleton_append]

/-! ### A call -/

/-- What a call keeps from its preparation to its end: an idle device with no error, the fault record `f` that it began with, and
the round S-boxes `S`. -/
structure Ready (S : Nat → Byte → Byte) (f : Option Fault) (s : State) : Prop where
  busy : s.busy = false
  errf : s.errf = false
  fault : s.fault = f
  tables : s.HoldsTables S

/-- `prepare` leaves the tables of its password, whatever the device held before. -/
theorem prepare_ready (D : Digest) {pw : List Byte} (hl : pw.length ≤ Config.pwdMax) (hb : s.busy = false)
    (he : s.errf = false) : ∃ t, prepare D pw s = .ok t ∧ Ready (passwordSboxes D pw) s.fault t := by
  let cleared : State := polled { s.accept .pwdclr with pwd := [] }
  let absorbed : State := { cleared with pwd := pw }
  let accepted : State := absorbed.accept .setup
  have hclear : cmd D .pwdclr s = .ok cleared := cmd_of_execAt hb rfl
  have habsorb : pwdb pw cleared = absorbed := pwdb_of_room rfl ((Nat.zero_add _).trans_le hl)
  have hsetup : cmd D .setup absorbed = .ok (polled (setupTables D accepted)) := cmd_of_execAt rfl rfl
  refine ⟨polled (setupTables D accepted), ?_, rfl, ?_, ?_, setupTables_holdsTables D accepted⟩
  · rw [prepare, hclear, Except.bind, habsorb, hsetup]
  · rw [polled_errf, setupTables_frame]; exact he
  · rw [polled_fault, setupTables_frame]; rfl

section
variable {S : Nat → Byte → Byte} {g : Block Byte → Block Byte} {f : Option Fault}

/-- A block goes in through DATA and comes out as `g` of it (R123). -/
theorem throughEngine_ready (hg : MapsData D S i g) (hs : Ready S f s) (b : Block Byte) :
    ∃ t, throughEngine D i b s = .ok (g b, t) ∧ Ready S f t := by
  let loaded : State := { s with data := b }
  let finished : State := polled { loaded.accept i with data := g b }
  have hcmd : cmd D i loaded = .ok finished := cmd_of_execAt hs.busy (hg (loaded.accept i) hs.tables)
  have hread : throughEngine D i b s = .ok (g b, { finished with reply := some finished.data.right.word }) := by
    rw [throughEngine, wr_block hs.busy, hcmd]
    exact congrArg Except.ok (rd_block rfl)
  exact ⟨_, hread, rfl, hs.errf, hs.fault, hs.tables⟩

/-- The blocks go through the engine one by one, each on its own (R125). -/
theorem allBlocks_ready (hg : MapsData D S i g) (hs : Ready S f s) (bs : List (Block Byte)) :
    ∃ t, allBlocks D i bs s = .ok (bytesOf (bs.map g), t) ∧ Ready S f t := by
  induction bs generalizing s with
  | nil => exact ⟨s, rfl, hs⟩
  | cons b bs ih =>
    obtain ⟨u, hu, hready⟩ := throughEngine_ready hg hs b
    obtain ⟨t, ht, hready⟩ := ih hready
    refine ⟨t, ?_, hready⟩
    rw [allBlocks, hu, Except.bind, ht, Except.map, List.map_cons, bytesOf_cons]

end

theorem call_of_long_password {pw : List Byte} (h : Config.pwdMax < pw.length) (buffer : List Byte) (s : State) :
    call D i pw buffer s = .error .passwordTooLong := by rw [call, if_pos h]

/-- A call on an idle device with no error gives `g` of each block in order, and ends with no error and no new fault. -/
theorem call_ready {pw : List Byte} {g : Block Byte → Block Byte} (hg : MapsData D (passwordSboxes D pw) i g)
    (hl : pw.length ≤ Config.pwdMax) (hb : s.busy = false) (he : s.errf = false) (buffer : List Byte) :
    ∃ t, call D i pw buffer s = .ok (bytesOf ((blocksOf buffer).map g), t) ∧ Ready (passwordSboxes D pw) s.fault t := by
  obtain ⟨u, hu, hready⟩ := prepare_ready D hl hb he
  obtain ⟨t, ht, hready⟩ := allBlocks_ready hg hready (blocksOf buffer)
  refine ⟨(rd .status t).2, ?_, hready.busy, hready.errf, hready.fault, hready.tables⟩
  have noError : (rd .status t).1.getLsbD 2 = false := (statusWord_errf t).trans hready.errf
  rw [call, if_neg (Nat.not_lt.mpr hl), hu, Except.bind, ht, Except.bind]
  exact if_neg (Bool.eq_false_iff.mp noError)

theorem encrypt_ready {pw : List Byte} (hl : pw.length ≤ Config.pwdMax) (hb : s.busy = false) (he : s.errf = false)
    (m : List Byte) : ∃ t, encrypt D m pw s = .ok (bytesOf ((blocksOf (addPadding m)).map (encBlock D pw)), t) ∧
      Ready (passwordSboxes D pw) s.fault t :=
  call_ready (mapsData_enc D pw) hl hb he (addPadding m)

/-- `decrypt` of the encrypted blocks of a buffer removes the padding of that buffer. -/
theorem decrypt_encrypted {pw p r : List Byte} {mode : Config.UnpadMode} (hl : pw.length ≤ Config.pwdMax) (hb : s.busy = false)
    (he : s.errf = false) (hp : p.length % 8 = 0) (hr : removePadding mode p = .ok r) :
    ∃ t, decrypt D mode (bytesOf ((blocksOf p).map (encBlock D pw))) pw s = .ok (r, t) := by
  have whole : (bytesOf ((blocksOf p).map (encBlock D pw))).length % 8 = 0 := by
    rw [length_bytesOf_map_blocksOf _ hp, hp]
  have back : (blocksOf (bytesOf ((blocksOf p).map (encBlock D pw)))).map (decBlock D pw) = blocksOf p := by
    rw [blocksOf_bytesOf, List.map_map, (decBlock_leftInverse D pw).comp_eq_id, List.map_id]
  obtain ⟨t, ht, -⟩ := call_ready (mapsData_dec D pw) hl hb he (bytesOf ((blocksOf p).map (encBlock D pw)))
  rw [back, bytesOf_blocksOf hp] at ht
  exact ⟨t, by rw [decrypt, if_neg (not_not.mpr whole), ht, Except.bind, hr, Except.map]⟩

end

/-! ### The statements -/

/-- Settles O57: the function of a block is the network with the password's round S-boxes. -/
theorem encryptIsElectronicCodebook : Obligations.EncryptIsElectronicCodebook := by
  refine fun D pw hl => ⟨encBlock D pw, fun m s hb he => ?_⟩
  obtain ⟨t, ht, hready⟩ := encrypt_ready (D := D) hl hb he m
  exact ⟨t, by rw [ht, bytesOf_map], hready.busy, hready.errf, hready.fault⟩

/-- Settles O58. -/
theorem driverRejectsBadInput : Obligations.DriverRejectsBadInput := by
  refine fun D pw s => ⟨fun mode c hc => by rw [decrypt, if_pos hc], fun hl => ⟨fun m => ?_, fun mode c hc => ?_⟩⟩
  · exact call_of_long_password hl (addPadding m) s
  · rw [decrypt, if_neg (not_not.mpr hc), call_of_long_password hl, Except.bind]

/-- Settles O59: DEC takes each block back under the tables of the same password, and O56 says what removal then leaves. -/
theorem decryptUndoesEncrypt : Obligations.DecryptUndoesEncrypt := by
  intro D m pw s u hl hb he hb' he'
  have whole := length_addPadding_mod m
  obtain ⟨count, faithful⟩ := removePaddingAfterAddPadding m
  obtain ⟨t, ht, -⟩ := encrypt_ready (D := D) hl hb he m
  exact ⟨_, t, ht, length_bytesOf_map_blocksOf _ whole, decrypt_encrypted hl hb' he' whole count,
    decrypt_encrypted hl hb' he' whole faithful⟩

end Sys2Proof.Machine.Driver
end

section
/-! SUPPORT. The errors of a host write, in the order of its checks (60_exceptions.md R134, R139), the race of a write with a
completion (R140), and the idle device (R149). -/

namespace Sys2Proof.Machine

section
variable {s : State} {a : Offset} {v : Word}

/-! ### Illegal command words -/

/-- The words that R134 calls Illegal are those that the decoder's three checks refuse. -/
theorem decode_isSome_iff_not_illegalWord : (decode v).toOption.isSome = true ↔ ¬ illegalWord v := by
  rw [decode, CmdFields.decodeFields_ok_iff_wellFormed]
  have hop : v.extractLsb' 0 4 ≤ 8 ↔ ¬ 9 ≤ (v.extractLsb' 0 4).toNat := by
    rw [Nat.not_le, Nat.lt_succ_iff]; rfl
  simp only [CmdFields.wellFormed, CmdFields.rsvdOk, CmdFields.opOk, CmdFields.roundOk, Bool.and_eq_true, Bool.or_eq_true,
    decide_eq_true_eq]
  simp only [CmdFields.ofWord, illegalWord, hop]
  tauto

theorem submit_of_illegalWord (s : State) (h : illegalWord v) : s.submit v = s.raise .illegalCmd := by
  rcases submit_cases s v with ⟨i, hi, -⟩ | ⟨_, -, e⟩
  · exact absurd h (decode_isSome_iff_not_illegalWord.mp (by rw [hi]; rfl))
  · exact e

theorem submit_of_not_illegalWord (s : State) (h : ¬ illegalWord v) : ∃ i, s.submit v = s.accept i := by
  rcases submit_cases s v with ⟨i, -, e⟩ | ⟨_, he, -⟩
  · exact ⟨i, e⟩
  · have hd := decode_isSome_iff_not_illegalWord.mpr h
    rw [he] at hd
    cases hd

/-- CMD written while BUSY = 0 submits the word (R77). -/
theorem memWrite_cmd (hb : s.busy = false) (ha : a.toNat = 0x0008) : memWrite a v s = s.submit v := by
  rw [memWrite_of_reg (r := .cmd) (Reg.ofOffset_of_toNat ha), writeReg, State.ifIdle_of_idle _ _ hb]

/-! ### The checks of a write -/

theorem memWrite_of_readOnly (h : a.toNat = 0x0000 ∨ a.toNat = 0x0004 ∨ a.toNat = 0x0018) :
    memWrite a v s = s.raise .access := by
  rcases h with h | h | h
  · exact memWrite_of_reg (r := .id) (Reg.ofOffset_of_toNat h) v s
  · exact memWrite_of_reg (r := .version) (Reg.ofOffset_of_toNat h) v s
  · exact memWrite_of_reg (r := .pwdLen) (Reg.ofOffset_of_toNat h) v s

theorem memWrite_of_busy (hb : s.busy = true) (h : protectedForWrite a.toNat) : memWrite a v s = s.raise .busy := by
  obtain ⟨f, hf⟩ := memWrite_of_protectedForWrite h v
  rw [hf, State.ifIdle_of_busy _ _ hb]

/-- STATUS and INTEN can be written at any time, and neither write records an error (R27, R31). -/
theorem memWrite_errf_of_statusOrInten (h : a.toNat = 0x000C ∨ a.toNat = 0x0010) (he : s.errf = false) :
    (memWrite a v s).errf = false := by
  rcases h with h | h
  · rw [memWrite_of_reg (r := .status) (Reg.ofOffset_of_toNat h), writeReg, State.writeStatus_errf, he, ite_self]
  · rw [memWrite_of_reg (r := .inten) (Reg.ofOffset_of_toNat h), writeReg, State.writeInten_errf, he]

/-- A word of KEY, DATA, SBOX or RSBOX is written without an error while BUSY = 0 (R58). -/
theorem memWrite_errf_of_byteRegister (hb : s.busy = false) (h : byteRegister a.toNat) :
    (memWrite a v s).errf = s.errf := by
  rcases byteRegister_cases h with ⟨k, ha⟩ | ha | ha | hw
  · rw [memWrite_key hb ha]
  · rw [memWrite_data0 hb ha]
  · rw [memWrite_data1 hb ha]
  · rw [memWrite_of_windowWord hb hw]

/-- A protected register is written without an error once R139's checks of BUSY, of the command word and of PWD's length have
passed. -/
theorem memWrite_errf_of_checked (hb : s.busy = false) (h : protectedForWrite a.toNat)
    (hc : ¬ (a.toNat = 0x0008 ∧ illegalWord v)) (hp : ¬ (a.toNat = 0x0014 ∧ s.pwd.length = 2 ^ 32 - 1)) :
    (memWrite a v s).errf = s.errf := by
  rcases h with ha | ha | ha
  · obtain ⟨i, hi⟩ := submit_of_not_illegalWord s fun hv => hc ⟨ha, hv⟩
    rw [memWrite_cmd hb ha, hi, State.accept_errf]
  · rw [memWrite_pwdData v hb ha, s.absorb_of_room _ fun hl => hp ⟨ha, hl⟩]
  · exact memWrite_errf_of_byteRegister hb ha

/-- The first error is recorded with its own code (R133). -/
theorem State.raise_error_of_not_errf (he : s.errf = false) (c : ErrorCode) :
    (s.raise c).errf = true ∧ (s.raise c).errcode = c.code := by
  rw [s.raise_of_not_errf c he]; exact ⟨rfl, rfl⟩

/-- Past the checks of R139 that look at the offset alone, the register written is a protected one. -/
theorem protectedForWrite_of_offset (hbad : ¬ (a.toNat % 4 ≠ 0 ∨ unmapped a.toNat))
    (hro : ¬ (a.toNat = 0x0000 ∨ a.toNat = 0x0004 ∨ a.toNat = 0x0018))
    (hopen : ¬ (a.toNat = 0x000C ∨ a.toNat = 0x0010)) :
    protectedForWrite a.toNat := by
  have cases := offset_cases a
  tauto

/-- An error already recorded is kept by a write to any offset but that of STATUS (R133). -/
theorem memWrite_keeps_error (he : s.errf = true) (ha : a.toNat ≠ 0x000C) :
    (memWrite a v s).errf = true ∧ (memWrite a v s).errcode = s.errcode := by
  rcases (memWrite_effect s a v).error with ⟨hf, hc⟩ | ⟨h0, -⟩ | ⟨-, -, h, -⟩
  · exact ⟨hf.trans he, hc⟩
  · cases he.symm.trans h0
  · exact absurd h ha

/-! ### A run with a completion of NOP -/

theorem coreAt_run_engine_nop (D : Digest) (hc : s.cur = some .nop) (n : Nat) (es : List Event) :
    Host.Core.run (coreAt D) (n + 1) { s with inputs := .engine :: es }
      = Host.Core.run (coreAt D) n { s.complete with inputs := es } := by
  have completion : (coreAt D).step { s with inputs := .engine :: es } = .next { s.complete with inputs := es } :=
    engineStep_of_cur D (s := { s with inputs := es }) hc
  exact run_succ_of_step completion n

end

/-! ### The statements -/

/-- Settles O33: R139's checks one by one. -/
theorem errorPriority : Obligations.ErrorPriority := by
  refine fun D s a v => ⟨memWrite a v s, feed_write .., memWrite_keeps_error, fun he => ?_⟩
  have raised := State.raise_error_of_not_errf he
  split_ifs with hbad hro hopen hb hcmd hpwd
  · rw [memWrite_of_none (Reg.ofOffset_bad hbad)]; exact raised .access
  · rw [memWrite_of_readOnly hro]; exact raised .access
  · exact memWrite_errf_of_statusOrInten hopen he
  · rw [memWrite_of_busy hb (protectedForWrite_of_offset hbad hro hopen)]; exact raised .busy
  · rw [memWrite_cmd (eq_false_of_ne_true hb) hcmd.1, submit_of_illegalWord s hcmd.2]; exact raised .illegalCmd
  · rw [memWrite_pwdData v (eq_false_of_ne_true hb) hpwd.1, s.absorb_of_full _ hpwd.2]; exact raised .pwdOverflow
  · have idle : s.busy = false := eq_false_of_ne_true hb
    rw [memWrite_errf_of_checked idle (protectedForWrite_of_offset hbad hro hopen) hcmd hpwd, he]

/-- Settles O15: with no event to come a step is the engine's turn, which changes nothing while CUR = none. -/
theorem idleDeviceKeepsItsState : Obligations.IdleDeviceKeepsItsState := by
  intro D s hi
  have hturn : stepAt D s = engineStep D s := by rw [stepAt, hi]
  exact ⟨fun hc => by rw [hturn, engineStep_of_idle D hc], by rw [hturn, feed_engine]⟩

/-- Settles O18: BUSY = 1 refuses the write that comes before the completion, and BUSY = 0 lets the write after it
through. -/
theorem bothOrdersOfARaceAreAdmitted : Obligations.BothOrdersOfARaceAreAdmitted := by
  intro D s a v ha hb hc he
  constructor
  · have refused : memWrite a v { s with inputs := [.engine] }
        = { s with errf := true, errcode := 2, inputs := [.engine] } := by
      rw [memWrite_of_busy (by exact hb) (.inr (.inr ⟨by omega, by omega⟩)),
        State.raise_of_not_errf _ _ (by exact he)]
      rfl
    rw [coreAt_run_host, hostStep, refused]
    exact coreAt_run_engine_nop D (s := { s with errf := true, errcode := 2 }) hc 0 []
  · rw [coreAt_run_engine_nop D hc, coreAt_run_host, hostStep, memWrite_data0 rfl ha]; rfl

/-- Settles O32. -/
theorem illegalCommandWordIsRefused : Obligations.IllegalCommandWordIsRefused := by
  intro D s a v ha hb hv
  rw [feed_write, memWrite_cmd hb ha, submit_of_illegalWord s hv]; rfl

end Sys2Proof.Machine
end

section
/-! SUPPORT. Reset (70_reset_and_hazards.md R150, R151), and what can change KEY, SBOX, RSBOX, DATA and PWD (R157): a command's
part, a host write's part, and every other step's, which is nothing. -/

namespace Sys2Proof.Machine

section
variable {D : Digest} {i : Instr} {s t : State} {a : Offset} {v : Word}

/-! ### The commands that change each table -/

theorem execAt_key_writer (h : execAt D i s = .next t) (hne : t.key ≠ s.key) : i = .hash ∨ i = .setup := by
  cases i with
  | hash => exact .inl rfl
  | setup => exact .inr rfl
  | nop | pwdclr | ksched => cases h; exact absurd rfl hne
  | expand | enc | dec | roundf => cases h; exact absurd (State.record_key ..) hne

/-- KSCHED changes bytes of the SBOX window only, EXPAND of the RSBOX window only (R90, R94). -/
theorem execAt_ram_writer {x : Nat} (h : execAt D i s = .next t) (hne : t.mem.read x ≠ s.mem.read x) :
    (i = .ksched ∧ 0x1000 ≤ x ∧ x < 0x1100) ∨ (i = .expand ∧ 0x2000 ≤ x ∧ x < 0x3000) ∨ i = .setup := by
  cases i with
  | ksched =>
    cases h
    exact .inl ⟨rfl, by_contra fun hx => hne ((scheduleSbox_read s x).trans (if_neg hx))⟩
  | expand =>
    cases h
    exact .inr (.inl ⟨rfl, by_contra fun hx => hne ((expandSbox_read s x).trans (if_neg hx))⟩)
  | setup => exact .inr (.inr rfl)
  | nop | pwdclr | hash => cases h; exact absurd rfl hne
  | enc | dec | roundf => cases h; exact absurd (congrArg (Memory.read · x) (State.record_mem ..)) hne

theorem execAt_sbox_writer {n : Nat} (hn : n < 256) (h : execAt D i s = .next t) (hne : t.sbox n ≠ s.sbox n) :
    i = .ksched ∨ i = .setup := by
  rcases execAt_ram_writer h hne with ⟨e, -⟩ | ⟨-, hx⟩ | e
  · exact .inl e
  · rw [Config.sboxBase] at hx; omega
  · exact .inr e

theorem execAt_rsboxFlat_writer {n : Nat} (h : execAt D i s = .next t) (hne : t.rsboxFlat n ≠ s.rsboxFlat n) :
    i = .expand ∨ i = .setup := by
  rcases execAt_ram_writer h hne with ⟨-, hx⟩ | ⟨e, -⟩ | e
  · rw [Config.rsboxBase] at hx; omega
  · exact .inl e
  · exact .inr e

theorem execAt_data_writer (h : execAt D i s = .next t) (hne : t.data ≠ s.data) :
    i = .enc ∨ i = .dec ∨ ∃ r, i = .roundf r := by
  cases i with
  | enc => exact .inl rfl
  | dec => exact .inr (.inl rfl)
  | roundf r => exact .inr (.inr ⟨r, rfl⟩)
  | nop | pwdclr | hash | ksched => cases h; exact absurd rfl hne
  | expand | setup => cases h; exact absurd (State.record_data ..) hne

theorem execAt_pwd_writer (h : execAt D i s = .next t) (hne : t.pwd ≠ s.pwd) : i = .pwdclr := by
  cases i with
  | pwdclr => rfl
  | nop | hash | ksched => cases h; exact absurd rfl hne
  | expand | setup | enc | dec | roundf => cases h; exact absurd (State.record_pwd ..) hne

/-! ### The host writes that change each table -/

theorem WriteEffect.key_writer (h : WriteEffect s a v t) (hne : t.key ≠ s.key) : ∃ k, k < 8 ∧ a.toNat = 0x0020 + 4 * k := by
  cases h with
  | key k ha => exact ⟨k, k.isLt, ha⟩
  | refused c => exact absurd (s.raise_key c) hne
  | status | inten | accepted | absorbed | data0 | data1 | window => exact absurd rfl hne

/-- A byte of a RAM changes by a write of the aligned word that holds it (R49). -/
theorem WriteEffect.ram_writer {x : Nat} (h : WriteEffect s a v t) (hne : t.mem.read x ≠ s.mem.read x) :
    a.toNat = 4 * (x / 4) := by
  cases h with
  | window hw =>
    have inWord : a.toNat ≤ x ∧ x < a.toNat + 4 :=
      by_contra fun hx => hne ((Memory.read_writeWord ..).trans (if_neg hx))
    omega
  | refused c => exact absurd (congrArg (Memory.read · x) (s.raise_mem c)) hne
  | status | inten | accepted | absorbed | key | data0 | data1 => exact absurd rfl hne

theorem WriteEffect.sbox_writer {n : Nat} (h : WriteEffect s a v t) (hne : t.sbox n ≠ s.sbox n) :
    a.toNat = 0x1000 + 4 * (n / 4) := by
  have ha := h.ram_writer hne
  rw [Config.sboxBase] at ha
  omega

theorem WriteEffect.rsboxFlat_writer {n : Nat} (h : WriteEffect s a v t) (hne : t.rsboxFlat n ≠ s.rsboxFlat n) :
    a.toNat = 0x2000 + 4 * (n / 4) := by
  have ha := h.ram_writer hne
  rw [Config.rsboxBase] at ha
  omega

theorem WriteEffect.data_writer (h : WriteEffect s a v t) (hne : t.data ≠ s.data) : a.toNat = 0x0040 ∨ a.toNat = 0x0044 := by
  cases h with
  | data0 ha => exact .inl ha
  | data1 ha => exact .inr ha
  | refused c => exact absurd (s.raise_data c) hne
  | status | inten | accepted | absorbed | key | window => exact absurd rfl hne

theorem WriteEffect.pwd_writer (h : WriteEffect s a v t) (hne : t.pwd ≠ s.pwd) : a.toNat = 0x0014 := by
  cases h with
  | absorbed ha => exact ha
  | refused c => exact absurd (s.raise_pwd c) hne
  | status | inten | accepted | key | data0 | data1 | window => exact absurd rfl hne

/-! ### Every other step -/

theorem hostStep_read_sameOperands (s : State) (a : Offset) : s.SameOperands (hostStep (.read a) s) := by
  rw [hostStep, memRead_state]; exact ⟨rfl, rfl, rfl, rfl, rfl, rfl⟩

theorem State.SameOperands.sbox (h : s.SameOperands t) (n : Nat) : t.sbox n = s.sbox n := by
  rw [State.sbox, h.mem, State.sbox]

theorem State.SameOperands.rsboxFlat (h : s.SameOperands t) (n : Nat) : t.rsboxFlat n = s.rsboxFlat n := by
  rw [State.rsboxFlat, h.mem, State.rsboxFlat]

/-- A step is a reset, leaves the operands, completes a command, or is a host write (R20). -/
theorem StepEffect.writer_cases (h : StepEffect D s t) :
    s.Resets ∨ s.SameOperands t ∨
    (∃ i x, s.Completes i ∧ execAt D i s.dropEvent = .next x ∧ t = x.complete) ∨
    (∃ a v, s.Writes a.toNat v ∧ WriteEffect s.dropEvent a v t) := by
  cases h with
  | reset hr => exact .inl hr
  | idle => exact .inr (.inl ⟨rfl, rfl, rfl, rfl, rfl, rfl⟩)
  | read a => exact .inr (.inl { hostStep_read_sameOperands s.dropEvent a with })
  | completion i x hc hx => exact .inr (.inr (.inl ⟨i, x, hc, hx, rfl⟩))
  | write a v _ hs hw => exact .inr (.inr (.inr ⟨a, v, hs, hw⟩))

end

/-! ### The statements -/

/-- Settles O5: a reset leaves no command in flight, and so the engine's turn after it nothing to do. -/
theorem resetAbandonsTheCommandInFlight : Obligations.ResetAbandonsTheCommandInFlight := fun D s =>
  ⟨s.resetEvent, feed_reset D s, rfl, (feed_engine D _).trans (engineStep_of_idle D s.resetEvent_cur)⟩

/-- Settles O52: what changed tells which command completed, or which register was written. -/
theorem tablesChangeOnlyByTheirWriters : Obligations.TablesChangeOnlyByTheirWriters := by
  intro D s t h
  rcases (stepAt_effect h).writer_cases with hr | same | ⟨i, x, hc, hx, rfl⟩ | ⟨a, v, hs, hw⟩
  · exact .inl hr
  · exact .inr ⟨(absurd same.key ·), fun n _ => (absurd (same.sbox n) ·), fun n _ => (absurd (same.rsboxFlat n) ·),
      (absurd same.data ·), (absurd same.pwd ·)⟩
  · have completed {j : Instr} (e : i = j) : s.Completes j := e ▸ hc
    exact .inr ⟨fun hne => (execAt_key_writer hx hne).imp completed (.inl ∘ completed),
      fun _ hn hne => (execAt_sbox_writer hn hx hne).imp completed (.inl ∘ completed),
      fun _ _ hne => (execAt_rsboxFlat_writer hx hne).imp completed (.inl ∘ completed),
      fun hne => (execAt_data_writer hx hne).imp completed (.imp completed fun ⟨r, e⟩ => .inl ⟨r, completed e⟩),
      fun hne => .inl (completed (execAt_pwd_writer hx hne))⟩
  · have written {n : Nat} (e : a.toNat = n) : s.Writes n v := e ▸ hs
    have key (hne : t.key ≠ s.key) : ∃ k v, k < 8 ∧ s.Writes (0x0020 + 4 * k) v := by
      obtain ⟨k, hk, ha⟩ := hw.key_writer hne
      exact ⟨k, v, hk, written ha⟩
    exact .inr ⟨fun hne => .inr (.inr (key hne)),
      fun _ _ hne => .inr (.inr ⟨v, written (hw.sbox_writer hne)⟩),
      fun _ _ hne => .inr (.inr ⟨v, written (hw.rsboxFlat_writer hne)⟩),
      fun hne => .inr (.inr (.inr ⟨a.toNat, v, hw.data_writer hne, hs⟩)),
      fun hne => .inr ⟨v, written (hw.pwd_writer hne)⟩⟩

end Sys2Proof.Machine
end
